-- ==== Sys2Proof/Word.lean ====
section
/-! DEFINITION. The machine's word and its register numbers (spec/00 R7: XLEN, ALEN and PC_WIDTH are 8, NREGS is 8). -/

namespace Sys2Proof

/-- The one width of this hardware: a register, a memory cell, an address, PC, FL, an instruction byte
(spec/00 R7, R9). Arithmetic on it is unsigned and wraps modulo 256 (spec/42 R150). -/
abbrev Byte := BitVec 8

/-- A register index that exists, 0 to 7 (spec/10 R20). -/
abbrev Reg := Fin 8

end Sys2Proof
end

