-- ==== Sys2Proof/Config.lean ====
section
/-! DEFINITION. The parameters of the hardware (spec/00 R7), as a type. Their values are `Config.standard`, in Decode.lean
beside the encoding tables. -/

namespace Sys2Proof

/-- The 13 instruction kinds, the closed set of spec/00 R2 (spec/40 R112 asks for a closed type of 13 constructors). -/
inductive Mnemonic
  | ldi | prn | hlt | add | mul | cmp | push | pop | call | ret | jmp | jeq | jne
  deriving DecidableEq, Repr

/-- The opcode map OPC: the opcode byte of each instruction (spec/30 R89). -/
abbrev OpcodeMap := Mnemonic → Byte

/-- What a register-operand byte above 7 does; the spec gives this parameter one value (spec/00 R7, spec/30 R87). -/
inductive RegIndexPolicy
  | fault
  deriving DecidableEq, Repr

/-- The parameter table of spec/00 R7, each field with the spec's value as its default.
`opc` is the one parameter the spec leaves open (spec/92 D1), so it has no default here. -/
structure Config where
  /-- NREGS: how many general registers. The type `Reg` fixes the same number. -/
  nregs : Nat := 8
  /-- XLEN: bits of a register, a cell, a data value. The type `Byte` fixes the same number. -/
  xlen : Nat := 8
  /-- MEMSIZE: how many memory cells. -/
  memSize : Nat := 256
  /-- ALEN: bits of an address. -/
  alen : Nat := 8
  /-- SP_INDEX: the register that is the stack pointer. -/
  spIndex : Reg := 7
  /-- SP_RESET. -/
  spReset : Byte := 0xF4
  /-- PC_RESET: also where the program image starts. -/
  pcReset : Byte := 0
  /-- PC_WIDTH (DESIGN CHOICE of the spec, D2; log 2). -/
  pcWidth : Nat := 8
  /-- FL_WIDTH (DESIGN CHOICE of the spec, D13; log 13). -/
  flWidth : Nat := 8
  /-- FL_E: the Equal flag's bit. -/
  flE : Nat := 0
  /-- FL_G: the Greater-than flag's bit. -/
  flG : Nat := 1
  /-- FL_L: the Less-than flag's bit. -/
  flL : Nat := 2
  /-- FL_RESET. -/
  flReset : Byte := 0
  /-- OPC: open, constrained by `OpcodeMap.Valid`. -/
  opc : OpcodeMap
  /-- REG_INDEX_POLICY (DESIGN CHOICE of the spec, D4; log 4). -/
  regIndexPolicy : RegIndexPolicy := .fault
  /-- MAX_OPERANDS: most operand bytes after the opcode byte. -/
  maxOperands : Nat := 2

end Sys2Proof
end

