-- ==== Sys2Proof/Syntax.lean ====
section
/-! DEFINITION. The instructions, one constructor per row of spec/opcode_table.json. -/

namespace Sys2Proof

/-- An instruction, with its operand bytes as they stand in memory: `a` is the first and `b` the second byte after the
opcode byte (spec/00 R11). A register operand is the whole byte (spec/30 R87); that it names a register is checked when
the instruction runs, before it writes anything (spec/60 R202; log 24), and by `Instr.wellFormed`. -/
inductive Instr
  /-- LDI: register `a` receives the immediate `imm8` (spec/41 R141). -/
  | ldi (a imm8 : Byte)
  /-- PRN: emit register `a` (spec/41 R142). -/
  | prn (a : Byte)
  /-- HLT: stop (spec/41 R143). -/
  | hlt
  /-- ADD: register `a` receives `a + b` (spec/42 R154). -/
  | add (a b : Byte)
  /-- MUL: register `a` receives `a * b` (spec/42 R155). -/
  | mul (a b : Byte)
  /-- CMP: FL receives the ordering of `a` against `b` (spec/42 R156). -/
  | cmp (a b : Byte)
  /-- PUSH: push register `a` (spec/43 R166). -/
  | push (a : Byte)
  /-- POP: pop into register `a` (spec/43 R167). -/
  | pop (a : Byte)
  /-- CALL: push the return address, jump to register `a` (spec/44 R176). -/
  | call (a : Byte)
  /-- RET: pop the return address into PC (spec/44 R177). -/
  | ret
  /-- JMP: jump to register `a` (spec/44 R178). -/
  | jmp (a : Byte)
  /-- JEQ: jump to register `a` if Equal is set (spec/44 R179). -/
  | jeq (a : Byte)
  /-- JNE: jump to register `a` if Equal is clear (spec/44 R180). -/
  | jne (a : Byte)
  deriving DecidableEq, Repr

end Sys2Proof
end

