-- ==== Sys2Proof/WellFormed.lean ====
section
/-! DEFINITION. Which instructions have legal operands: a register-index byte is 0 to 7; every LDI immediate is legal
(spec/30 R95). -/

namespace Sys2Proof

/-- A register-index byte is `0b00000rrr` (spec/30 R83, R87). -/
def isRegByte (b : Byte) : Bool := b.toNat < 8

/-- The operand bytes of an instruction that are register indices, in the order they are checked: `a`, then `b`
(spec/40 R114). LDI's second byte is an immediate. -/
def Instr.regBytes : Instr → List Byte
  | .ldi a _ => [a]
  | .prn a => [a]
  | .hlt => []
  | .add a b => [a, b]
  | .mul a b => [a, b]
  | .cmp a b => [a, b]
  | .push a => [a]
  | .pop a => [a]
  | .call a => [a]
  | .ret => []
  | .jmp a => [a]
  | .jeq a => [a]
  | .jne a => [a]

/-- Every register-index operand byte names a register. -/
def Instr.wellFormed (i : Instr) : Bool := i.regBytes.all isRegByte

/-- The operand byte that InvalidRegisterIndex reports, if any: the first that names no register (spec/60 R202, R208). -/
def Instr.firstBadReg (i : Instr) : Option Byte := i.regBytes.find? fun b => !isRegByte b

end Sys2Proof
end

