-- ==== Sys2Proof/Decode.lean ====
section
/-! DEFINITION. Encoding tables, the decoder, and the encoder (spec/30; spec/40 R112, R113, R122). -/

namespace Sys2Proof

/-- The 13 instruction kinds in the order of the opcode table. -/
def Mnemonic.all : List Mnemonic :=
  [.ldi, .prn, .hlt, .add, .mul, .cmp, .push, .pop, .call, .ret, .jmp, .jeq, .jne]

/-- The four formats of spec/30 R82 to R85. -/
inductive Format
  /-- no operand byte (R82) -/
  | z
  /-- one register (R83) -/
  | r
  /-- two registers (R84) -/
  | rr
  /-- a register and an immediate (R85) -/
  | ri
  deriving DecidableEq, Repr

/-- The format of each instruction (spec/30 R90, column "format"). -/
def Mnemonic.format : Mnemonic → Format
  | .hlt | .ret => .z
  | .prn | .push | .pop | .call | .jmp | .jeq | .jne => .r
  | .add | .mul | .cmp => .rr
  | .ldi => .ri

/-- How many operand bytes a format has (spec/30 R82 to R85). -/
def Format.operandCount : Format → Nat
  | .z => 0
  | .r => 1
  | .rr => 2
  | .ri => 2

/-- How many operand bytes follow the opcode byte of an instruction (spec/40 R113). -/
def Mnemonic.operandCount (m : Mnemonic) : Nat := m.format.operandCount

/-- Bits 7:6 of an opcode byte, the operand count it states (spec/30 R81). -/
def nopsField (op : Byte) : Nat := (op.extractLsb' 6 2).toNat

/-- Bit 4 of an opcode byte, which the decoder forwards and nothing reads (spec/30 R81, spec/40 R122; log 16). -/
def writesRegHint (op : Byte) : Bool := op.getLsbD 4

/-- The constraints on OPC (spec/30 R89): different instructions have different bytes, and bits 7:6 of the byte are the
operand count. -/
structure OpcodeMap.Valid (opc : OpcodeMap) : Prop where
  injective : ∀ m n : Mnemonic, opc m = opc n → m = n
  operandCount : ∀ m : Mnemonic, nopsField (opc m) = m.operandCount

/-- The default opcode bytes (spec/30 R90, spec/opcode_table.json).
PRESUMED: the spec supplies them from general knowledge of the LS-8 (spec/92 D1; log 1). -/
def opcDefault : OpcodeMap
  | .ldi => 0x82
  | .prn => 0x47
  | .hlt => 0x01
  | .add => 0xA0
  | .mul => 0xA2
  | .cmp => 0xA7
  | .push => 0x45
  | .pop => 0x46
  | .call => 0x50
  | .ret => 0x11
  | .jmp => 0x54
  | .jeq => 0x55
  | .jne => 0x56

/-- The hardware's parameters (spec/00 R7) with the default OPC. -/
def Config.standard : Config := { opc := opcDefault }

/-- Dispatch (spec/40 R112): the instruction whose opcode byte is `op`, all 8 bits compared (spec/30 R91); none is
"Unrecognized". -/
def dispatch (opc : OpcodeMap) (op : Byte) : Option Mnemonic :=
  Mnemonic.all.find? fun m => opc m == op

/-- An instruction kind with its operand bytes; a kind with fewer operand bytes reads fewer (spec/30 R88). -/
def assemble (m : Mnemonic) (a b : Byte) : Instr :=
  match m with
  | .ldi => .ldi a b
  | .prn => .prn a
  | .hlt => .hlt
  | .add => .add a b
  | .mul => .mul a b
  | .cmp => .cmp a b
  | .push => .push a
  | .pop => .pop a
  | .call => .call a
  | .ret => .ret
  | .jmp => .jmp a
  | .jeq => .jeq a
  | .jne => .jne a

/-- Why the decoder gives no instruction. -/
inductive DecodeError
  /-- The opcode byte is none of the 13 (spec/30 R92). The step turns it into the stop UnrecognizedOpcode. -/
  | unrecognizedOpcode (op : Byte)
  deriving DecidableEq, Repr

/-- Why a list of bytes does not begin with an instruction. Only `decodeBytes` answers it, which no step uses: the
machine's memory has no end (DESIGN CHOICE, safe; log 28). -/
inductive BytesError
  /-- The first byte is no opcode. -/
  | unrecognizedOpcode (op : Byte)
  /-- The list ends before the instruction does. -/
  | truncated
  deriving DecidableEq, Repr

/-- The instruction at an opcode byte `op` and the two bytes after it, under an opcode map. Total; the operand bytes an
instruction does not have are ignored (spec/30 R88, R91; log 27). -/
def decodeWith (opc : OpcodeMap) (op a b : Byte) : Except DecodeError Instr :=
  match dispatch opc op with
  | some m => .ok (assemble m a b)
  | none => .error (.unrecognizedOpcode op)

/-- `decodeWith` with the default OPC: the decoder of the machine. -/
def decode (op a b : Byte) : Except DecodeError Instr := decodeWith Config.standard.opc op a b

/-- Decode the instruction a list of bytes begins with, and give the rest of the list. -/
def decodeBytesWith (opc : OpcodeMap) : List Byte → Except BytesError (Instr × List Byte)
  | [] => .error .truncated
  | op :: rest =>
    match dispatch opc op with
    | none => .error (.unrecognizedOpcode op)
    | some m =>
      if rest.length < m.operandCount then .error .truncated
      else .ok (assemble m (rest.getD 0 0) (rest.getD 1 0), rest.drop m.operandCount)

/-- `decodeBytesWith` with the default OPC. -/
def decodeBytes (bs : List Byte) : Except BytesError (Instr × List Byte) :=
  decodeBytesWith Config.standard.opc bs

/-- The kind of an instruction. -/
def Instr.mnemonic : Instr → Mnemonic
  | .ldi _ _ => .ldi
  | .prn _ => .prn
  | .hlt => .hlt
  | .add _ _ => .add
  | .mul _ _ => .mul
  | .cmp _ _ => .cmp
  | .push _ => .push
  | .pop _ => .pop
  | .call _ => .call
  | .ret => .ret
  | .jmp _ => .jmp
  | .jeq _ => .jeq
  | .jne _ => .jne

/-- The operand bytes of an instruction in the order of their addresses (spec/30 R82 to R85, spec/20 R53). -/
def Instr.operandBytes : Instr → List Byte
  | .ldi a imm8 => [a, imm8]
  | .prn a => [a]
  | .hlt => []
  | .add a b => [a, b]
  | .mul a b => [a, b]
  | .cmp a b => [a, b]
  | .push a => [a]
  | .pop a => [a]
  | .call a => [a]
  | .ret => []
  | .jmp a => [a]
  | .jeq a => [a]
  | .jne a => [a]

/-- The bytes of an instruction under an opcode map: opcode byte, then the operand bytes (spec/30 R80). -/
def encodeWith (opc : OpcodeMap) (i : Instr) : List Byte := opc i.mnemonic :: i.operandBytes

/-- `encodeWith` with the default OPC. -/
def encode (i : Instr) : List Byte := encodeWith Config.standard.opc i

/-- Byte `k` of a table word `w` of `nbits` bits: bit 0 of the word is the least significant bit of the opcode byte, and
the bits above `nbits` are 0 (log 23). -/
def tableByte (nbits w k : Nat) : Byte := BitVec.ofNat 8 ((w % 2 ^ nbits) >>> (8 * k))

/-- The instruction the decoder reads from a word of the opcode table, its operand bytes beyond `nbits` zero. -/
def decodeTableWord (nbits w : Nat) : Option Instr :=
  match decode (tableByte nbits w 0) (tableByte nbits w 1) (tableByte nbits w 2) with
  | .ok i => some i
  | .error _ => none

end Sys2Proof
end

