-- ==== Sys2Proof/Machine/State.lean ====
section
/-! DEFINITION. The state of CORE (spec/10), the reasons a step can stop the model, and the state after reset. -/

namespace Sys2Proof.Machine

/-- Why `running` was cleared (spec/10 R35, spec/60 R200). DESIGN CHOICE of the spec, D20: the codes are the spec's, and
a closed type may stand for them; `StopCause.code` gives the number (log 18). -/
inductive StopCause
  /-- 0: the core is running. -/
  | none
  /-- 1: the HLT instruction. -/
  | hlt
  /-- 2: an opcode byte that is none of the 13. -/
  | unrecognizedOpcode
  /-- 3: a register-operand byte above 7. -/
  | invalidRegisterIndex
  /-- 4: an ALU operation outside ADD, MUL, CMP; nothing raises it (spec/60 R203; log 15). -/
  | unsupportedAluOp
  deriving DecidableEq, Repr

/-- The memory: address and byte pairs, addresses strictly rising, no byte equal to what an unlisted address reads as
(`Memory.wf`). -/
abbrev Memory := List Host.Cell

/-- Everything the spec gives the machine (head of spec/10: "Nothing else is state"). -/
structure State where
  /-- The register file x[0] to x[7]; x[7] is the stack pointer (R20, R22). -/
  x : Vector Byte 8
  /-- The program counter (R25). -/
  pc : Byte
  /-- The flags register FL: bit 0 Equal, bit 1 Greater-than, bit 2 Less-than (R29). -/
  fl : Byte
  /-- The one memory of 256 cells (R39). -/
  mem : Memory
  /-- The running flag (R34). -/
  running : Bool
  /-- The stop record: why the core stopped (R35). -/
  stopCause : StopCause
  /-- The stop record: the offending byte (R35). -/
  stopInfo : Byte
  /-- The output trace, oldest byte first (R43). -/
  out : List Byte
  deriving DecidableEq, Repr

/-- The reasons a step gives no next state. The spec's own faults are stops of the core, so they are NEXT states with
`running` cleared and the stop record written (spec/60 R210). -/
inductive Fault
  /-- Raised by `step` alone, on a state with running = 0: such a state has no step (spec/00 R12, spec/40 R117).
  Safe: nothing is claimed to happen (log 7). -/
  | notRunning
  deriving DecidableEq, Repr

/-- The reasons the model has no meaning for an instruction. -/
inductive Refusal
  /-- Raised by an arm of `exec` whose instruction has no meaning yet; no arm does. Safe. -/
  | notModelled (mnemonic : String)
  deriving DecidableEq, Repr

/-- The outcome of a step or of an instruction. -/
abbrev Result := Host.Outcome State Fault Refusal

/-- The machine right after reset, before the image is loaded (spec/10 R44, spec/70 R230). -/
def State.reset : State where
  x := #v[0, 0, 0, 0, 0, 0, 0, Config.standard.spReset]
  pc := Config.standard.pcReset
  fl := Config.standard.flReset
  mem := []
  running := true
  stopCause := .none
  stopInfo := 0
  out := []

end Sys2Proof.Machine
end

