-- ==== Sys2Proof/Machine/Ops.lean ====
section
/-! DEFINITION. The operations every instruction is built from: memory (spec/20), register file, program counter, stack
pointer unit, output port (spec/40 part 2), and the stop that takes the place of trap entry (spec/60 R210). -/

namespace Sys2Proof.Machine

/-! ### memory_controller (spec/40 R124) -/

/-- What an unlisted address reads as: the reset value of every cell (spec/10 R40). -/
def Memory.unlisted : Byte := 0

/-- The byte listed for address `n`, or the unlisted byte. -/
def Memory.lookup : Memory → Nat → Byte
  | [], _ => Memory.unlisted
  | (k, v) :: rest, n => if k = n then v else Memory.lookup rest n

/-- The memory with address `n` removed from the list, so that it reads as unlisted. -/
def Memory.erase (m : Memory) (n : Nat) : Memory := m.filter fun c => c.1 != n

/-- The memory with address `n` listed as `v`, addresses kept rising. -/
def Memory.insert : Memory → Nat → Byte → Memory
  | [], n, v => [(n, v)]
  | (k, w) :: rest, n, v =>
    if n < k then (n, v) :: (k, w) :: rest
    else if n = k then (n, v) :: rest
    else (k, w) :: Memory.insert rest n v

/-- MemRead(a, 1): total, without side effect (spec/20 R51). -/
def Memory.read (m : Memory) (a : Byte) : Byte := m.lookup a.toNat

/-- MemWrite(a, 1, v): sets one cell, changes no other (spec/20 R52), and keeps the list canonical. -/
def Memory.write (m : Memory) (a v : Byte) : Memory :=
  if v = Memory.unlisted then m.erase a.toNat else m.insert a.toNat v

/-- Every listed address is at least `lo`, addresses rise strictly, each lies inside the memory, and no listed byte is
the unlisted one. -/
def Memory.wfFrom : Nat → Memory → Bool
  | _, [] => true
  | lo, (k, v) :: rest =>
    decide (lo ≤ k) && decide (k < Config.standard.memSize) && decide (v ≠ Memory.unlisted) &&
      Memory.wfFrom (k + 1) rest

/-- The canonical form of a memory: equal memories are equal lists (log 25). -/
def Memory.wf (m : Memory) : Bool := Memory.wfFrom 0 m

/-- The byte at address `a` of the state's memory. -/
def State.memRead (s : State) (a : Byte) : Byte := s.mem.read a

/-- The state after storing `v` at address `a`. -/
def State.memWrite (s : State) (a v : Byte) : State := { s with mem := s.mem.write a v }

/-! ### register_file (spec/40 R123) -/

/-- Read x[r]. -/
def State.reg (s : State) (r : Reg) : Byte := s.x[r]

/-- Write x[r]; no register is hard-wired (spec/10 R20). -/
def State.setReg (s : State) (r : Reg) (v : Byte) : State := { s with x := s.x.set r v }

/-! ### program_counter (spec/40 R120) -/

/-- Load PC. -/
def State.setPc (s : State) (t : Byte) : State := { s with pc := t }

/-- Advance PC by `n` modulo 256 (spec/10 R26; DESIGN CHOICE of the spec, D2, log 2). -/
def State.advancePc (s : State) (n : Byte) : State := { s with pc := s.pc + n }

/-! ### condition_flags_register (spec/40 R126) -/

/-- Write all 8 bits of FL (spec/10 R31). -/
def State.setFl (s : State) (f : Byte) : State := { s with fl := f }

/-- The Equal flag, FL[0]: all that JEQ and JNE read (spec/10 R31). -/
def State.equalFlag (s : State) : Bool := s.fl.getLsbD Config.standard.flE

/-! ### stack_pointer_unit (spec/40 R127, spec/43 R165) -/

/-- The stack pointer: register 7, which has no storage of its own (spec/10 R22). -/
def State.sp (s : State) : Byte := s.reg Config.standard.spIndex

/-- Write the stack pointer, that is register 7. -/
def State.setSp (s : State) (v : Byte) : State := s.setReg Config.standard.spIndex v

/-- The address a push stores to: SP decremented, wrapping modulo 256 (spec/20 R60). -/
def State.pushAddress (s : State) : Byte := s.sp - 1

/-- push_byte: decrement SP, then store at the new SP the value `v` gives AFTER the decrement. PUSH R7 and CALL R7 see
the decremented SP (spec/43 R168, spec/44 R176; DESIGN CHOICE of the spec, D14, log 14). -/
def pushByte (v : State → Byte) (s : State) : State :=
  let s1 := s.setSp s.pushAddress
  s1.memWrite s1.sp (v s1)

/-- pop_byte: read at SP, deliver the byte, then increment the SP that holds AFTER the delivery: POP R7 increments the
popped byte (spec/43 R168; DESIGN CHOICE of the spec, D14, log 14). -/
def popByte (deliver : Byte → State → State) (s : State) : State :=
  let s1 := deliver (s.memRead s.sp) s
  s1.setSp (s1.sp + 1)

/-! ### the PRN output port (spec/40 R128, R129) -/

/-- Output(v): append to the output trace (spec/10 R43); the sink cannot refuse (spec/41 R142). -/
def State.output (s : State) (v : Byte) : State := { s with out := s.out ++ [v] }

/-! ### dispatch_logic: stopping (spec/60 R210) -/

/-- The numeric code of a cause, as stop_cause[2:0] shows it (spec/10 R35, spec/60 R200). -/
def StopCause.code : StopCause → BitVec 3
  | .none => 0
  | .hlt => 1
  | .unrecognizedOpcode => 2
  | .invalidRegisterIndex => 3
  | .unsupportedAluOp => 4

/-- `stop Cause(info)`: the one entry into a stop, for HLT and for the three exceptional causes alike. Nothing else is
saved or changed, and PC stays at the stopping instruction (spec/60 R210, R211; DESIGN CHOICE of the spec, D6, log 6).
There is no return from a stop (R213): only `pressReset` leads out of it. -/
def stop (cause : StopCause) (info : Byte) (s : State) : State :=
  { s with running := false, stopCause := cause, stopInfo := info }

/-- `raise Fault(info)`: the same mechanism (spec/00 R10, spec/60 R210). -/
def raise (cause : StopCause) (info : Byte) (s : State) : State := stop cause info s

end Sys2Proof.Machine
end

