-- ==== Sys2Proof/Machine/Flags.lean ====
section
/-! DEFINITION. The one flag computation, CMP's (spec/42 R156, spec/40 R125). -/

namespace Sys2Proof.Machine

/-- The ALU's 3-bit flag result of comparing `p` with `q`, unsigned, tested in the source's order: less, greater, else
equal (spec/42 R156). Bit positions are the parameters FL_L, FL_G, FL_E (spec/00 R7). -/
def cmpFlags (p q : Byte) : BitVec 3 :=
  if p < q then BitVec.twoPow 3 Config.standard.flL
  else if p > q then BitVec.twoPow 3 Config.standard.flG
  else BitVec.twoPow 3 Config.standard.flE

/-- FL with the three flags `f`: bits 7:3 are zero (spec/10 R29, R30). -/
def flOfFlags (f : BitVec 3) : Byte := f.setWidth 8

end Sys2Proof.Machine
end

