-- ==== Sys2Proof/Machine/Operands.lean ====
section
/-! DEFINITION. Register operands: `regidx` and the check it makes before an instruction writes anything
(spec/30 R87, spec/40 R114). -/

namespace Sys2Proof.Machine

/-- regidx(b): the register a byte names, or the byte itself when it names none (spec/00 R10, spec/30 R87). -/
def regidx (b : Byte) : Except Byte Reg :=
  if h : b.toNat < 8 then .ok ⟨b.toNat, h⟩ else .error b

/-- What an illegal register-operand byte does: the fault InvalidRegisterIndex, nothing else written (spec/60 R202;
DESIGN CHOICE of the spec, D4, log 4). -/
def raiseInvalidRegister (bad : Byte) (s : State) : Result :=
  match Config.standard.regIndexPolicy with
  | .fault => .next (raise .invalidRegisterIndex bad s)

/-- Run a one-register instruction: check `a`, then execute. -/
def withReg (a : Byte) (s : State) (body : Reg → State) : Result :=
  match regidx a with
  | .ok ra => .next (body ra)
  | .error bad => raiseInvalidRegister bad s

/-- Run a two-register instruction: check `a`, then `b`, then execute (spec/60 R208; DESIGN CHOICE of the spec, D21,
log 19). -/
def withRegs (a b : Byte) (s : State) (body : Reg → Reg → State) : Result :=
  match regidx a with
  | .error bad => raiseInvalidRegister bad s
  | .ok ra =>
    match regidx b with
    | .ok rb => .next (body ra rb)
    | .error bad => raiseInvalidRegister bad s

end Sys2Proof.Machine
end

