-- ==== Sys2Proof/Machine/Alu.lean ====
section
/-! DEFINITION. The alu unit and its instructions ADD, MUL, CMP (spec/42, spec/40 R125). -/

namespace Sys2Proof.Machine

/-- The ALU's operation select, closed at three (spec/42 R152, R159; DESIGN CHOICE of the spec, D16, log 15). -/
inductive AluOp
  | add | mul | cmp
  deriving DecidableEq, Repr

/-- What the ALU delivers: a value for the first register, or the three flags. -/
inductive AluOut
  | value (v : Byte)
  | flags (f : BitVec 3)
  deriving DecidableEq, Repr

/-- The alu unit (spec/40 R125); results keep the low 8 bits (spec/42 R150). -/
def alu : AluOp → Byte → Byte → AluOut
  | .add, p, q => .value (p + q)
  | .mul, p, q => .value (p * q)
  | .cmp, p, q => .flags (cmpFlags p q)

/-- Where an ALU result goes: the first register (ADD, MUL) or FL (CMP). -/
def aluWriteBack (ra : Reg) (r : AluOut) (s : State) : State :=
  match r with
  | .value v => s.setReg ra v
  | .flags f => s.setFl (flOfFlags f)

/-- The three ALU instructions: both operands are read, the result is written back, PC advances by 3 (spec/42 R154 to
R156). -/
def execAlu (op : AluOp) (a b : Byte) (s : State) : Result :=
  withRegs a b s fun ra rb => (aluWriteBack ra (alu op (s.reg ra) (s.reg rb)) s).advancePc 3

/-- ADD (spec/42 R154). -/
def execAdd (a b : Byte) (s : State) : Result := execAlu .add a b s

/-- MUL (spec/42 R155). -/
def execMul (a b : Byte) (s : State) : Result := execAlu .mul a b s

/-- CMP (spec/42 R156). -/
def execCmp (a b : Byte) (s : State) : Result := execAlu .cmp a b s

end Sys2Proof.Machine
end

