-- ==== Sys2Proof/Machine/Control.lean ====
section
/-! DEFINITION. CALL, RET, JMP, JEQ, JNE (spec/44). A taken transfer loads PC with the target, no length added (R175). -/

namespace Sys2Proof.Machine

/-- The return address of a CALL: the address after its two bytes (spec/44 R176). -/
def returnAddress (s : State) : Byte := s.pc + 2

/-- CALL (spec/44 R176): the target register is read after the push. -/
def execCall (a : Byte) (s : State) : Result :=
  withReg a s fun ra =>
    let s1 := pushByte returnAddress s
    s1.setPc (s1.reg ra)

/-- RET (spec/44 R177): the popped byte goes to PC. -/
def execRet (s : State) : Result := .next (popByte (fun v s1 => s1.setPc v) s)

/-- JMP (spec/44 R178). -/
def execJmp (a : Byte) (s : State) : Result :=
  withReg a s fun ra => s.setPc (s.reg ra)

/-- A conditional jump: to the register's value when taken, else past its two bytes (spec/44 R181). -/
def condJump (taken : Bool) (ra : Reg) (s : State) : State :=
  if taken then s.setPc (s.reg ra) else s.advancePc 2

/-- JEQ (spec/44 R179). -/
def execJeq (a : Byte) (s : State) : Result := withReg a s fun ra => condJump s.equalFlag ra s

/-- JNE (spec/44 R180). -/
def execJne (a : Byte) (s : State) : Result := withReg a s fun ra => condJump (!s.equalFlag) ra s

end Sys2Proof.Machine
end

