-- ==== Sys2Proof/Machine/LoadPrintHalt.lean ====
section
/-! DEFINITION. LDI, PRN, HLT (spec/41). -/

namespace Sys2Proof.Machine

/-- LDI (spec/41 R141). It writes no memory (spec/90 C1, log 29). -/
def execLdi (a imm8 : Byte) (s : State) : Result :=
  withReg a s fun ra => (s.setReg ra imm8).advancePc 3

/-- PRN (spec/41 R142). -/
def execPrn (a : Byte) (s : State) : Result :=
  withReg a s fun ra => (s.output (s.reg ra)).advancePc 2

/-- HLT (spec/41 R143): a stop with PC left at the HLT byte (DESIGN CHOICE of the spec, D6, log 6). -/
def execHlt (s : State) : Result := .next (stop .hlt 0 s)

end Sys2Proof.Machine
end

