-- ==== Sys2Proof/Machine/Stack.lean ====
section
/-! DEFINITION. PUSH and POP (spec/43). -/

namespace Sys2Proof.Machine

/-- PUSH (spec/43 R166): the register is read after the decrement of SP. -/
def execPush (a : Byte) (s : State) : Result :=
  withReg a s fun ra => (pushByte (fun s1 => s1.reg ra) s).advancePc 2

/-- POP (spec/43 R167): SP is read for the increment after the destination is written. -/
def execPop (a : Byte) (s : State) : Result :=
  withReg a s fun ra => (popByte (fun v s1 => s1.setReg ra v) s).advancePc 2

end Sys2Proof.Machine
end

