-- ==== Sys2Proof/Machine/Fetch.lean ====
section
/-! DEFINITION. fetch_unit: where an instruction's bytes are read (spec/40 R111, R121), and, beside it, where an
instruction is stored so that the next fetch reads it. -/

namespace Sys2Proof.Machine

/-- The address of byte `k` of the instruction at PC, modulo 256 (spec/20 R60; DESIGN CHOICE of the spec, D3, log 3). -/
def fetchAddress (s : State) (k : Byte) : Byte := s.pc + k

/-- Byte `k` of the instruction at PC: the opcode byte is byte 0, `a` is byte 1, `b` is byte 2. All are read from the
state the step begins with, so before the instruction writes anything (spec/20 R66; DESIGN CHOICE of the spec, D5,
log 5). -/
def fetchByte (s : State) (k : Byte) : Byte := s.memRead (fetchAddress s k)

/-- The state with three bytes stored where the next fetch reads them. -/
def placeAtPc (op a b : Byte) (s : State) : State :=
  ((s.memWrite (fetchAddress s 0) op).memWrite (fetchAddress s 1) a).memWrite (fetchAddress s 2) b

/-- The state with `running` set: the fetch unit fetches nothing while running = 0 (spec/40 R121). -/
def State.setRunning (s : State) : State := { s with running := true }

end Sys2Proof.Machine
end

