-- ==== Sys2Proof/Machine/Cycle.lean ====
section
/-! DEFINITION. One step: fetch, decode, execute (spec/40 R110), under any opcode map. -/

namespace Sys2Proof.Machine

/-- What the decoder reads at PC. -/
def decodeAtPc (opc : OpcodeMap) (s : State) : Except DecodeError Instr :=
  decodeWith opc (fetchByte s 0) (fetchByte s 1) (fetchByte s 2)

/-- What the step does with what the decoder read: run the instruction, or stop with UnrecognizedOpcode and the byte,
nothing else written (spec/60 R201). -/
def runDecoded (s : State) : Except DecodeError Instr → Result
  | .ok i => exec i s
  | .error (.unrecognizedOpcode op) => .next (stop .unrecognizedOpcode op s)

/-- One step under an opcode map (spec/40 R110). A state with running = 0 has no step (R117; DESIGN CHOICE: the model
answers the fault `notRunning`, log 7). -/
def stepWith (opc : OpcodeMap) (s : State) : Result :=
  if s.running then runDecoded s (decodeAtPc opc s) else .fault .notRunning

end Sys2Proof.Machine
end

