-- ==== Sys2Proof/Machine/Step.lean ====
section
/-! DEFINITION. The step of the machine with the default opcode map, and the placing of one instruction where it
fetches. -/

namespace Sys2Proof.Machine

/-- One step: one instruction (spec/40 R110). -/
def step (s : State) : Host.Outcome State Fault Refusal := stepWith Config.standard.opc s

/-- The state whose next step runs the instruction of a table word (log 23). -/
def State.withFetchWord (s : State) (nbits w : Nat) : State :=
  (placeAtPc (tableByte nbits w 0) (tableByte nbits w 1) (tableByte nbits w 2) s).setRunning

end Sys2Proof.Machine
end

