-- ==== Sys2Proof/Machine/Boot.lean ====
section
/-! DEFINITION. The host's ports: reset, load and run (spec/40 R116, R129; spec/70 R230 to R239). -/

namespace Sys2Proof.Machine

/-- The reset port: whatever the state, the state after reset (spec/40 R129, spec/60 R213). -/
def pressReset (_ : State) : State := State.reset

/-- The load port: the host writes one cell (spec/40 R129). The spec lets the host use it only after reset and before
the first step; `boot` uses it so (log 31). -/
def loadByte (a v : Byte) (s : State) : State := s.memWrite a v

/-- Write the bytes of an image at `a`, `a + 1`, ... (spec/70 R237). -/
def loadFrom (a : Byte) : List Byte → State → State
  | [], s => s
  | v :: rest, s => loadFrom (a + 1) rest (loadByte a v s)

/-- Load an image from the reset address of PC upward; an image of more than 256 bytes is refused (spec/70 R239;
DESIGN CHOICE of the spec, D11, log 11). -/
def loadImage (image : List Byte) (s : State) : Option State :=
  if image.length ≤ Config.standard.memSize then some (loadFrom Config.standard.pcReset image s) else none

/-- Reset, then load (spec/70 R232). -/
def boot (image : List Byte) : Option State := loadImage image State.reset

/-- `run` under fuel: take steps while running = 1 (spec/40 R116; log 17). -/
def run : Nat → State → Result
  | 0, s => .next s
  | fuel + 1, s =>
    if s.running then
      match step s with
      | .next s' => run fuel s'
      | .fault r => .fault r
      | .refused r => .refused r
    else .next s

end Sys2Proof.Machine
end

