-- ==== Sys2Proof/Safety.lean ====
section
/-! DEFINITION. The predicates claims are stated with: the outcomes of a step (spec/00 R12) and the invariant of the
machine. -/

namespace Sys2Proof.Machine

/-- A clean stop: HLT or an unrecognized opcode (spec/00 R12). -/
abbrev State.CleanStop (s : State) : Prop :=
  s.running = false ∧ (s.stopCause = .hlt ∨ s.stopCause = .unrecognizedOpcode)

/-- A fault: a stop whose cause is neither (spec/00 R12, R13). -/
abbrev State.FaultStop (s : State) : Prop :=
  s.running = false ∧ (s.stopCause = .invalidRegisterIndex ∨ s.stopCause = .unsupportedAluOp)

/-- FL holds one of the four values of spec/10 R30. -/
abbrev State.FlLegal (s : State) : Prop := s.fl = 0x00 ∨ s.fl = 0x01 ∨ s.fl = 0x02 ∨ s.fl = 0x04

/-- The stop record says the truth: none and 0 while running; once stopped, the cause is that of the instruction PC
points at, and the info is what spec/60 R200 gives for it (spec/60 R211: PC identifies the stopping instruction). -/
def State.StopRecordTrue (s : State) : Prop :=
  match s.stopCause with
  | .none => s.running = true ∧ s.stopInfo = 0
  | .hlt => s.running = false ∧ s.stopInfo = 0 ∧ decodeAtPc Config.standard.opc s = .ok .hlt
  | .unrecognizedOpcode =>
      s.running = false ∧ s.stopInfo = fetchByte s 0 ∧
        decodeAtPc Config.standard.opc s = .error (.unrecognizedOpcode s.stopInfo)
  | .invalidRegisterIndex =>
      s.running = false ∧
        ∃ i : Instr, decodeAtPc Config.standard.opc s = .ok i ∧ i.firstBadReg = some s.stopInfo
  | .unsupportedAluOp => False

/-- The invariant every step keeps: canonical memory, a legal FL, a true stop record. -/
def State.Inv (s : State) : Prop := s.mem.wf = true ∧ s.FlLegal ∧ s.StopRecordTrue

/-! ### What claims about frames are stated with -/

/-- Every byte of memory reads as before. -/
abbrev State.SameMemory (s t : State) : Prop := ∀ a : Byte, t.memRead a = s.memRead a

/-- The running flag and the stop record are as before. -/
abbrev State.SameStop (s t : State) : Prop :=
  t.running = s.running ∧ t.stopCause = s.stopCause ∧ t.stopInfo = s.stopInfo

/-- The registers an instruction reads, as the table of spec/10 R24 lists them; a conditional jump reads its register
when it is taken. -/
def readsReg (i : Instr) (s : State) (q : Reg) : Prop :=
  match i with
  | .ldi _ _ => False
  | .prn a => q.val = a.toNat
  | .hlt => False
  | .add a b => q.val = a.toNat ∨ q.val = b.toNat
  | .mul a b => q.val = a.toNat ∨ q.val = b.toNat
  | .cmp a b => q.val = a.toNat ∨ q.val = b.toNat
  | .push a => q = 7 ∨ q.val = a.toNat
  | .pop _ => q = 7
  | .call a => q = 7 ∨ q.val = a.toNat
  | .ret => q = 7
  | .jmp a => q.val = a.toNat
  | .jeq a => s.fl.getLsbD 0 = true ∧ q.val = a.toNat
  | .jne a => s.fl.getLsbD 0 = false ∧ q.val = a.toNat

/-- The registers an instruction writes, as the table of spec/10 R24 lists them. -/
def writesReg (i : Instr) (q : Reg) : Prop :=
  match i with
  | .ldi a _ => q.val = a.toNat
  | .prn _ => False
  | .hlt => False
  | .add a _ => q.val = a.toNat
  | .mul a _ => q.val = a.toNat
  | .cmp _ _ => False
  | .push _ => q = 7
  | .pop a => q.val = a.toNat ∨ q = 7
  | .call _ => q = 7
  | .ret => q = 7
  | .jmp _ => False
  | .jeq _ => False
  | .jne _ => False

/-- None of the next `n` steps from `s` stores to address `c`: no step that is taken runs a PUSH or CALL with a legal
register byte whose store address is `c` (only those store, spec/10 R41). -/
def storesElsewhere (c : Byte) : Nat → State → Prop
  | 0, _ => True
  | n + 1, s => ∀ t, step s = .next t →
      (∀ a : Byte, a.toNat < 8 →
        (decodeAtPc Config.standard.opc s = .ok (.push a) ∨ decodeAtPc Config.standard.opc s = .ok (.call a)) →
          s.pushAddress ≠ c) ∧
        storesElsewhere c n t

/-- Instructions run one after the other, whatever memory holds. -/
def execAll : List Instr → State → Result
  | [], s => .next s
  | i :: rest, s =>
    match exec i s with
    | .next t => execAll rest t
    | .fault r => .fault r
    | .refused r => .refused r

end Sys2Proof.Machine
end

