-- ==== Sys2Proof/Certificates/Slice0/Obligations.lean ====
section
/-! DEFINITION. The statements for the provers, from the rules of spec/. "D<n>" is a decision of spec/92, which is the
spec's own choice and not the source's; a statement that rests on one says so and is listed as derived. -/

open Sys2Proof Sys2Proof.Machine

/-! ### Reset (spec/10, spec/70) -/

/-- spec/10 R44 and spec/70 R230, rows x, pc, FL, mem and running, each with its own rule: registers R23, PC R25, FL R32,
running R34, memory R40. That reset clears all of memory is the spec's own D10 (log 10). -/
def Obligations.ResetGivesTheConstructionState : Prop :=
  (∀ q : Reg, q.val < 7 → State.reset.reg q = 0) ∧ State.reset.reg 7 = 0xF4 ∧ State.reset.pc = 0 ∧
    State.reset.fl = 0 ∧ (∀ a : Byte, State.reset.memRead a = 0) ∧ State.reset.running = true

/-- spec/10 R44, rows stop_cause, stop_info and out: the spec's own D20, and its inference from R43 (logs 8, 18). -/
def Obligations.ResetClearsStopRecordAndOutput : Prop :=
  State.reset.stopCause.code = 0 ∧ State.reset.stopInfo = 0 ∧ State.reset.out = []

/-- spec/30 R93 and vector V-RST2: nothing loaded, the first step stops on the byte 0. Rests on the default opcode map,
which gives no instruction the byte 0 (PRESUMED, D1, log 1), on memory cleared by reset (D10, log 10), on PC staying
(D6, log 6) and on the form of the stop record (D19, D20, log 18). -/
def Obligations.EmptyMemoryStopsFirstStep : Prop :=
  step State.reset =
    .next { State.reset with running := false, stopCause := .unrecognizedOpcode, stopInfo := 0x00 }

/-- The base case of `StepKeepsTheInvariant`: the reset state meets `State.Inv`, and so does every state from which a
program's run begins, that is every state `boot` answers for an image (spec/70 R232). -/
def Obligations.ResetMeetsInvariant : Prop :=
  State.reset.Inv ∧ ∀ (image : List Byte) (s : State), boot image = some s → s.Inv

/-! ### Loading (spec/70) -/

/-- spec/70 R238 and R237: after the load a cell holds its image byte, or 0 beyond the image, and the load changed no
register, not PC, not FL. -/
def Obligations.LoadPlacesImageAndZeroBeyond : Prop :=
  ∀ image : List Byte, image.length ≤ 256 →
    ∃ s, boot image = some s ∧
      (∀ (a : Byte) (h : a.toNat < image.length), s.memRead a = image[a.toNat]) ∧
      (∀ a : Byte, image.length ≤ a.toNat → s.memRead a = 0) ∧
      (∀ q : Reg, s.reg q = State.reset.reg q) ∧ s.pc = State.reset.pc ∧ s.fl = State.reset.fl ∧
      State.SameStop State.reset s ∧ s.out = State.reset.out

/-- spec/70 R239: an image that does not fit is refused. Rests on D11 (log 11). -/
def Obligations.LongImageIsRefused : Prop :=
  ∀ image : List Byte, 256 < image.length → boot image = none

/-! ### LDI, PRN, HLT (spec/41) -/

/-- spec/41 R141, for a legal register byte: it completes; result and frame. PC wraps by D2 (log 2). -/
def Obligations.LdiLoadsItsImmediate : Prop :=
  ∀ (s : State) (a imm8 : Byte) (ha : a.toNat < 8),
    ∃ t, exec (.ldi a imm8) s = .next t ∧
      (∀ q : Reg, t.reg q = if q = ⟨a.toNat, ha⟩ then imm8 else s.reg q) ∧
      t.pc.toNat = (s.pc.toNat + 3) % 256 ∧
      t.fl = s.fl ∧ State.SameMemory s t ∧ State.SameStop s t ∧ t.out = s.out

/-- spec/41 R142, for a legal register byte: it completes; result and frame. PC wraps by D2 (log 2); the trace is a list
of bytes by D8 (log 8). -/
def Obligations.PrnEmitsItsRegister : Prop :=
  ∀ (s : State) (a : Byte) (ha : a.toNat < 8),
    ∃ t, exec (.prn a) s = .next t ∧
      t.out = s.out ++ [s.reg ⟨a.toNat, ha⟩] ∧
      t.pc.toNat = (s.pc.toNat + 2) % 256 ∧
      (∀ q : Reg, t.reg q = s.reg q) ∧ t.fl = s.fl ∧ State.SameMemory s t ∧ State.SameStop s t

/-- spec/41 R143: it completes, clears running and records cause 1; all else, PC among it, stays. PC rests on D6 (log 6),
the record on D20 (log 18). -/
def Obligations.HltStopsAndRecordsIt : Prop :=
  ∀ s : State, ∃ t, exec .hlt s = .next t ∧
    t.running = false ∧ t.stopCause.code = 1 ∧ t.stopInfo = 0 ∧
    t.pc = s.pc ∧ (∀ q : Reg, t.reg q = s.reg q) ∧ t.fl = s.fl ∧ State.SameMemory s t ∧ t.out = s.out

/-- spec/41 R141, the source's property it quotes, for a legal register byte: LDI followed by PRN of the same register
emits the immediate. The trace is a list of bytes by D8 (log 8). -/
def Obligations.LdiThenPrnEmitsTheImmediate : Prop :=
  ∀ (s : State) (a imm8 : Byte), a.toNat < 8 →
    ∃ t, execAll [.ldi a imm8, .prn a] s = .next t ∧ t.out = s.out ++ [imm8]

/-! ### ADD, MUL, CMP (spec/42) -/

/-- spec/42 R154 and R150, for legal register bytes: it completes; the exact sum modulo 256; frame. PC wraps by D2
(log 2). -/
def Obligations.AddKeepsTheSumModulo256 : Prop :=
  ∀ (s : State) (a b : Byte) (ha : a.toNat < 8) (hb : b.toNat < 8),
    ∃ t, exec (.add a b) s = .next t ∧
      (t.reg ⟨a.toNat, ha⟩).toNat = ((s.reg ⟨a.toNat, ha⟩).toNat + (s.reg ⟨b.toNat, hb⟩).toNat) % 256 ∧
      (∀ q : Reg, q ≠ ⟨a.toNat, ha⟩ → t.reg q = s.reg q) ∧
      t.pc.toNat = (s.pc.toNat + 3) % 256 ∧
      t.fl = s.fl ∧ State.SameMemory s t ∧ State.SameStop s t ∧ t.out = s.out

/-- spec/42 R155 and R150, for legal register bytes: it completes; the exact product modulo 256; frame. PC wraps by D2
(log 2). -/
def Obligations.MulKeepsTheProductModulo256 : Prop :=
  ∀ (s : State) (a b : Byte) (ha : a.toNat < 8) (hb : b.toNat < 8),
    ∃ t, exec (.mul a b) s = .next t ∧
      (t.reg ⟨a.toNat, ha⟩).toNat = ((s.reg ⟨a.toNat, ha⟩).toNat * (s.reg ⟨b.toNat, hb⟩).toNat) % 256 ∧
      (∀ q : Reg, q ≠ ⟨a.toNat, ha⟩ → t.reg q = s.reg q) ∧
      t.pc.toNat = (s.pc.toNat + 3) % 256 ∧
      t.fl = s.fl ∧ State.SameMemory s t ∧ State.SameStop s t ∧ t.out = s.out

/-- spec/42 R156, for legal register bytes: it completes; FL is written whole by the unsigned order; frame. FL's width
rests on D13 (log 13), PC's wrap on D2 (log 2). -/
def Obligations.CmpWritesTheUnsignedOrder : Prop :=
  ∀ (s : State) (a b : Byte) (ha : a.toNat < 8) (hb : b.toNat < 8),
    ∃ t, exec (.cmp a b) s = .next t ∧
      ((s.reg ⟨a.toNat, ha⟩).toNat < (s.reg ⟨b.toNat, hb⟩).toNat → t.fl = 0x04) ∧
      ((s.reg ⟨b.toNat, hb⟩).toNat < (s.reg ⟨a.toNat, ha⟩).toNat → t.fl = 0x02) ∧
      (s.reg ⟨a.toNat, ha⟩ = s.reg ⟨b.toNat, hb⟩ → t.fl = 0x01) ∧
      (∀ q : Reg, t.reg q = s.reg q) ∧
      t.pc.toNat = (s.pc.toNat + 3) % 256 ∧
      State.SameMemory s t ∧ State.SameStop s t ∧ t.out = s.out

/-- spec/42 R157 (the spec's inference from R156): compared the other way round, Less and Greater swap and Equal stays. -/
def Obligations.CmpIsSymmetric : Prop :=
  ∀ (s t u : State) (a b : Byte), a.toNat < 8 → b.toNat < 8 →
    exec (.cmp a b) s = .next t → exec (.cmp b a) s = .next u →
      (t.fl = 0x04 ↔ u.fl = 0x02) ∧ (t.fl = 0x02 ↔ u.fl = 0x04) ∧ (t.fl = 0x01 ↔ u.fl = 0x01)

/-- spec/42 R151 (the spec's inference from R150): the low 8 bits are right for two's-complement bytes too. -/
def Obligations.AddAndMulAreRightForSignedBytes : Prop :=
  ∀ (s t u : State) (a b : Byte) (ha : a.toNat < 8) (hb : b.toNat < 8),
    exec (.add a b) s = .next t → exec (.mul a b) s = .next u →
      t.reg ⟨a.toNat, ha⟩ =
          BitVec.ofInt 8 ((s.reg ⟨a.toNat, ha⟩).toInt + (s.reg ⟨b.toNat, hb⟩).toInt) ∧
        u.reg ⟨a.toNat, ha⟩ =
          BitVec.ofInt 8 ((s.reg ⟨a.toNat, ha⟩).toInt * (s.reg ⟨b.toNat, hb⟩).toInt)

/-! ### PUSH, POP (spec/43) -/

/-- spec/43 R166, for a legal register byte: it completes; SP is decremented modulo 256, the register as it reads AFTER
that is stored at the new SP, and every other byte stays; frame. Register 7 as operand rests on D14 (log 14), PC's wrap
on D2 (log 2). -/
def Obligations.PushStoresAtDecrementedSp : Prop :=
  ∀ (s : State) (a : Byte) (ha : a.toNat < 8),
    ∃ t, exec (.push a) s = .next t ∧
      (t.reg 7).toNat = ((s.reg 7).toNat + 255) % 256 ∧
      (∀ q : Reg, q ≠ 7 → t.reg q = s.reg q) ∧
      t.reg 7 = s.pushAddress ∧
      t.memRead s.pushAddress = t.reg ⟨a.toNat, ha⟩ ∧
      (∀ c : Byte, c ≠ s.pushAddress → t.memRead c = s.memRead c) ∧
      t.pc.toNat = (s.pc.toNat + 2) % 256 ∧
      t.fl = s.fl ∧ State.SameStop s t ∧ t.out = s.out

/-- spec/43 R167, for a legal register byte: it completes; the byte at SP is delivered, then SP, as it reads AFTER the
delivery, is incremented modulo 256; memory and the rest stay. Register 7 as operand rests on D14 (log 14), PC's wrap on
D2 (log 2). -/
def Obligations.PopDeliversThenIncrementsSp : Prop :=
  ∀ (s : State) (a : Byte) (ha : a.toNat < 8),
    ∃ t, exec (.pop a) s = .next t ∧
      (a.toNat ≠ 7 → t.reg ⟨a.toNat, ha⟩ = s.memRead (s.reg 7) ∧ (t.reg 7).toNat = ((s.reg 7).toNat + 1) % 256) ∧
      (a.toNat = 7 → (t.reg 7).toNat = ((s.memRead (s.reg 7)).toNat + 1) % 256) ∧
      (∀ q : Reg, q ≠ ⟨a.toNat, ha⟩ → q ≠ 7 → t.reg q = s.reg q) ∧
      t.pc.toNat = (s.pc.toNat + 2) % 256 ∧
      t.fl = s.fl ∧ State.SameMemory s t ∧ State.SameStop s t ∧ t.out = s.out

/-- spec/43 R168 and spec/44 R176: what PUSH, POP and CALL do when their operand is register 7. The spec's own D14
(log 14); the return address wraps by D2 (log 2). -/
def Obligations.RegisterSevenOperandsSeeTheMovedSp : Prop :=
  ∀ s : State,
    (∃ t, exec (.push 7) s = .next t ∧ t.reg 7 = s.reg 7 - 1 ∧ t.memRead (s.reg 7 - 1) = s.reg 7 - 1) ∧
      (∃ t, exec (.pop 7) s = .next t ∧ t.reg 7 = s.memRead (s.reg 7) + 1) ∧
      (∃ t, exec (.call 7) s = .next t ∧ t.reg 7 = s.reg 7 - 1 ∧ t.pc = s.reg 7 - 1 ∧
        t.memRead (s.reg 7 - 1) = s.pc + 2)

/-- spec/43 R170 (the spec's inference from R166, R167): a push and a pop round-trip the value and restore SP. -/
def Obligations.PushThenPopRoundTrips : Prop :=
  ∀ (s : State) (a b : Byte) (ha : a.toNat < 8) (hb : b.toNat < 8), a.toNat ≠ 7 → b.toNat ≠ 7 →
    ∃ t, execAll [.push a, .pop b] s = .next t ∧
      t.reg ⟨b.toNat, hb⟩ = s.reg ⟨a.toNat, ha⟩ ∧
      t.reg 7 = s.reg 7 ∧
      t.memRead (s.reg 7 - 1) = s.reg ⟨a.toNat, ha⟩ ∧
      (∀ q : Reg, q ≠ ⟨b.toNat, hb⟩ → t.reg q = s.reg q)

/-- spec/43 R171 (the spec's inference from R165), from any SP: after k pushes of registers other than 7, the j-th pushed
byte lies j + 1 cells below the first SP, SP is k below it, and no other cell changed. -/
def Obligations.PushesStackDownwards : Prop :=
  ∀ (ops : List Byte) (s : State), (∀ a ∈ ops, a.toNat < 7) → ops.length ≤ 256 →
    ∃ t, execAll (ops.map Instr.push) s = .next t ∧
      t.reg 7 = s.reg 7 - BitVec.ofNat 8 ops.length ∧
      (∀ (j : Nat) (hj : j < ops.length) (q : Reg), q.val = ops[j].toNat →
        t.memRead (s.reg 7 - BitVec.ofNat 8 (j + 1)) = s.reg q) ∧
      (∀ c : Byte, (∀ j < ops.length, c ≠ s.reg 7 - BitVec.ofNat 8 (j + 1)) → t.memRead c = s.memRead c)

/-! ### CALL, RET, JMP, JEQ, JNE (spec/44) -/

/-- spec/44 R176, for a legal register byte: it completes; SP is decremented, the return address stored at the new SP, PC
loaded with the register as it reads AFTER the push; frame. Register 7 as operand rests on D14 (log 14), the return
address's wrap on D2 (log 2). -/
def Obligations.CallPushesReturnAddressAndJumps : Prop :=
  ∀ (s : State) (a : Byte) (ha : a.toNat < 8),
    ∃ t, exec (.call a) s = .next t ∧
      (t.reg 7).toNat = ((s.reg 7).toNat + 255) % 256 ∧
      (∀ q : Reg, q ≠ 7 → t.reg q = s.reg q) ∧
      t.reg 7 = s.pushAddress ∧
      (t.memRead s.pushAddress).toNat = (s.pc.toNat + 2) % 256 ∧
      (∀ c : Byte, c ≠ s.pushAddress → t.memRead c = s.memRead c) ∧
      t.pc = t.reg ⟨a.toNat, ha⟩ ∧
      t.fl = s.fl ∧ State.SameStop s t ∧ t.out = s.out

/-- spec/44 R177: it completes; PC is the byte at SP, SP is incremented modulo 256, all else stays. -/
def Obligations.RetPopsIntoPc : Prop :=
  ∀ s : State, ∃ t, exec .ret s = .next t ∧
    t.pc = s.memRead (s.reg 7) ∧
    (t.reg 7).toNat = ((s.reg 7).toNat + 1) % 256 ∧
    (∀ q : Reg, q ≠ 7 → t.reg q = s.reg q) ∧
    t.fl = s.fl ∧ State.SameMemory s t ∧ State.SameStop s t ∧ t.out = s.out

/-- spec/44 R178, for a legal register byte: it completes; PC is the register, all else stays. -/
def Obligations.JmpLoadsPcFromItsRegister : Prop :=
  ∀ (s : State) (a : Byte) (ha : a.toNat < 8),
    ∃ t, exec (.jmp a) s = .next t ∧
      t.pc = s.reg ⟨a.toNat, ha⟩ ∧
      (∀ q : Reg, t.reg q = s.reg q) ∧ t.fl = s.fl ∧
      State.SameMemory s t ∧ State.SameStop s t ∧ t.out = s.out

/-- spec/44 R181: JEQ and JNE complete; each branches exactly when FL[0] is set (JEQ) or clear (JNE), and else falls
through past its two bytes; all else stays (R179, R180). The fall-through's wrap past address 255 is the spec's own D2
(log 2). -/
def Obligations.JeqAndJneBranchOnEqual : Prop :=
  ∀ (s : State) (a : Byte) (ha : a.toNat < 8),
    ∃ t u, exec (.jeq a) s = .next t ∧ exec (.jne a) s = .next u ∧
      t.pc = (if s.fl.getLsbD 0 = true then s.reg ⟨a.toNat, ha⟩ else s.pc + 2) ∧
      u.pc = (if s.fl.getLsbD 0 = false then s.reg ⟨a.toNat, ha⟩ else s.pc + 2) ∧
      ∀ v ∈ [t, u], (∀ q : Reg, v.reg q = s.reg q) ∧ v.fl = s.fl ∧
        State.SameMemory s v ∧ State.SameStop s v ∧ v.out = s.out

/-- spec/44 R182 (the spec's inference from R176, R177): from any later state whose SP and return cell are those the CALL
left, RET resumes after the CALL and restores SP. The return address wraps by D2 (log 2). -/
def Obligations.RetResumesAfterItsCall : Prop :=
  ∀ (s t u : State) (a : Byte), a.toNat < 8 → exec (.call a) s = .next t →
    u.reg 7 = t.reg 7 → u.memRead (t.reg 7) = t.memRead (t.reg 7) →
      ∃ w, exec .ret u = .next w ∧ w.pc = s.pc + 2 ∧ w.reg 7 = s.reg 7

/-- spec/44 R178, corner case: a JMP whose register holds its own address repeats the same state. The operand's
address wraps by D3 (log 3). -/
def Obligations.JmpToItselfRepeatsTheState : Prop :=
  ∀ (s : State) (a : Byte) (ha : a.toNat < 8), s.running = true →
    decode (s.memRead s.pc) (s.memRead (s.pc + 1)) (s.memRead (s.pc + 2)) = .ok (.jmp a) →
    s.reg ⟨a.toNat, ha⟩ = s.pc → step s = .next s

/-! ### Stops (spec/60) -/

/-- spec/60 R202 and R208, for every instruction: an operand byte that names no register stops the core with cause 3 and
the first such byte, and changes nothing else. The spec's own D4, D6, D20, D21 (logs 4, 6, 18, 19). -/
def Obligations.BadRegisterByteStopsWithNothingWritten : Prop :=
  ∀ (i : Instr) (s : State) (bad : Byte), i.firstBadReg = some bad →
    exec i s = .next { s with running := false, stopCause := .invalidRegisterIndex, stopInfo := bad }

/-- spec/40 R115: every instruction with legal operands completes, and all but HLT leave the running flag and the stop
record alone. -/
def Obligations.LegalInstructionsCompleteAndKeepRunning : Prop :=
  ∀ (i : Instr) (s : State), i.wellFormed = true →
    ∃ t, exec i s = .next t ∧ (i ≠ .hlt → State.SameStop s t)

/-- spec/60 R201: an opcode byte that is none of the 13 stops the core with cause 2 and that byte, and changes nothing
else. The spec's own D6, D19, D20 (logs 6, 18). -/
def Obligations.UnrecognizedOpcodeStopsWithItsByte : Prop :=
  ∀ s : State, s.running = true → (∀ m : Mnemonic, Config.standard.opc m ≠ s.memRead s.pc) →
    step s = .next { s with running := false, stopCause := .unrecognizedOpcode, stopInfo := s.memRead s.pc }

/-- spec/30 R92, under every opcode map that meets R89: 243 bytes are unrecognized, and fetching one stops the core
cleanly with cause UnrecognizedOpcode and changes no other state. That PC stays is the spec's own D6 (log 6), the form of
the recorded cause D19 and D20 (log 18). -/
def Obligations.EveryMapLeaves243BytesThatStop : Prop :=
  ∀ opc : OpcodeMap, opc.Valid →
    ((List.finRange 256).countP fun n => dispatch opc (BitVec.ofFin n) == none) = 243 ∧
      ∀ s : State, s.running = true → (∀ m : Mnemonic, opc m ≠ s.memRead s.pc) →
        ∃ t, stepWith opc s = .next t ∧ t.CleanStop ∧ t.stopCause = .unrecognizedOpcode ∧
          (∀ q : Reg, t.reg q = s.reg q) ∧ t.pc = s.pc ∧ t.fl = s.fl ∧ State.SameMemory s t ∧ t.out = s.out

/-- spec/00 R12: a step of a running state gives exactly one of a running state, a clean stop, a fault; a stopped state
has no step. -/
def Obligations.StepHasExactlyOneOfThreeOutcomes : Prop :=
  ∀ s : State,
    (s.running = true → ∃ t, step s = .next t ∧
      ((t.running = true ∧ ¬ t.CleanStop ∧ ¬ t.FaultStop) ∨
        (t.CleanStop ∧ t.running = false ∧ ¬ t.FaultStop) ∨
        (t.FaultStop ∧ t.running = false ∧ ¬ t.CleanStop))) ∧
    (s.running = false → ∀ t, step s ≠ .next t)

/-- spec/40 R117: a stopped state has no step. That the model answers the fault `notRunning` is its own choice (D7,
log 7). -/
def Obligations.StoppedCoreTakesNoStep : Prop :=
  ∀ s : State, s.running = false → step s = .fault .notRunning

/-- spec/10 R34 and spec/60 R200: a step starts from a running state, and clears running exactly on HLT, on an
unrecognized opcode and on an operand byte that names no register. Rests on D4 (log 4); operand addresses wrap by D3
(log 3). -/
def Obligations.RunningIsClearedExactlyByTheStops : Prop :=
  ∀ s t : State, step s = .next t →
    s.running = true ∧
      (t.running = false ↔
        (decodeAtPc Config.standard.opc s = .ok .hlt ∨
          (∃ op, decodeAtPc Config.standard.opc s = .error (.unrecognizedOpcode op)) ∨
          ∃ i bad, decodeAtPc Config.standard.opc s = .ok i ∧ i.firstBadReg = some bad))

/-- spec/60 R211: a step that stops the core changes the stop record and nothing else; UnsupportedAluOp is never its
cause (R203, D16, log 15). PC rests on D6 (log 6). -/
def Obligations.StopsArePrecise : Prop :=
  ∀ s t : State, step s = .next t → t.running = false →
    t = { s with running := false, stopCause := t.stopCause, stopInfo := t.stopInfo } ∧
      t.stopCause ≠ .unsupportedAluOp ∧ t.stopCause ≠ .none

/-! ### Rules of the whole machine -/

/-- spec/40 R110: a step of a running state is `exec` of the instruction decoded from the bytes at PC, PC + 1 and PC + 2,
read before anything is written. The step adds nothing around it. Address wrap rests on D3, the order on D5 (logs 3, 5). -/
def Obligations.StepRunsTheDecodedInstruction : Prop :=
  ∀ (s : State) (i : Instr), s.running = true →
    decode (s.memRead s.pc) (s.memRead (s.pc + 1)) (s.memRead (s.pc + 2)) = .ok i → step s = exec i s

/-- spec/10 R24: no instruction changes a register its row of the table does not list as written, and none depends on a
register its row does not list as read: changing such a register before changes it after (or nothing, where the
instruction overwrites it) and nothing else. -/
def Obligations.RegistersReadAndWrittenAreTheTables : Prop :=
  (∀ (i : Instr) (s t : State) (q : Reg), exec i s = .next t → ¬ writesReg i q → t.reg q = s.reg q) ∧
    (∀ (i : Instr) (s t : State) (q : Reg) (v : Byte), i.wellFormed = true → exec i s = .next t →
      ¬ readsReg i s q →
        (writesReg i q → exec i (s.setReg q v) = .next t) ∧
          (¬ writesReg i q → exec i (s.setReg q v) = .next (t.setReg q v)))

/-- spec/10 R31: only CMP writes FL, and it overwrites all of it; only JEQ and JNE read FL, and only bit 0. -/
def Obligations.OnlyCmpWritesFlAndOnlyBitZeroIsRead : Prop :=
  (∀ (i : Instr) (s t : State), exec i s = .next t → (∀ a b, i ≠ .cmp a b) → t.fl = s.fl) ∧
    (∀ (a b f : Byte) (s t : State), a.toNat < 8 → b.toNat < 8 → exec (.cmp a b) s = .next t →
      exec (.cmp a b) (s.setFl f) = .next t) ∧
    (∀ (i : Instr) (s t : State) (f : Byte), exec i s = .next t →
      (∀ a, i = .jeq a ∨ i = .jne a → f.getLsbD 0 = s.fl.getLsbD 0) →
        ∃ t', exec i (s.setFl f) = .next t' ∧ t'.setFl t.fl = t)

/-- spec/44 R184 and spec/10 R31, over whole runs: the bits of FL other than E never influence a run. -/
def Obligations.GreaterAndLessFlagsNeverSteerARun : Prop :=
  ∀ (n : Nat) (s t : State) (f : Byte), f.getLsbD 0 = s.fl.getLsbD 0 → run n s = .next t →
    ∃ t', run n (s.setFl f) = .next t' ∧ t'.setFl t.fl = t ∧ t'.fl.getLsbD 0 = t.fl.getLsbD 0

/-- spec/10 R41, spec/20 R55 and spec/90 C1: a byte changes only under PUSH or CALL with a legal register byte, and only
the byte at the decremented SP. -/
def Obligations.OnlyPushAndCallWriteMemory : Prop :=
  ∀ (i : Instr) (s t : State) (c : Byte), exec i s = .next t → t.memRead c ≠ s.memRead c →
    c = s.pushAddress ∧ ∃ a : Byte, a.toNat < 8 ∧ (i = .push a ∨ i = .call a)

/-- spec/10 R43: an instruction appends to the output trace what does not depend on the trace: PRN its register, any
other nothing; and no instruction reads the trace. Rests on D8 (log 8). -/
def Obligations.OutputIsAppendedByPrnAndNeverRead : Prop :=
  ∀ (i : Instr) (s t : State), exec i s = .next t →
    ∃ emitted : List Byte, t.out = s.out ++ emitted ∧
      (∀ (a : Byte) (ha : a.toNat < 8), i = .prn a → emitted = [s.reg ⟨a.toNat, ha⟩]) ∧
      ((∀ a : Byte, a.toNat < 8 → i ≠ .prn a) → emitted = []) ∧
      ∀ o : List Byte, exec i { s with out := o } = .next { t with out := o ++ emitted }

/-- spec/30 R96 (the spec's inference): the instructions that neither transfer control nor stop advance PC by their own
encoded length. PC wraps by D2 (log 2). -/
def Obligations.PlainInstructionsAdvancePcByTheirLength : Prop :=
  ∀ (i : Instr) (s t : State), i.wellFormed = true → exec i s = .next t →
    i.mnemonic ∉ [Mnemonic.hlt, .call, .ret, .jmp, .jeq, .jne] →
      t.pc.toNat = (s.pc.toNat + (encode i).length) % 256

/-- spec/20 R66: a byte PUSH or CALL stored is what every later fetch from that cell reads, the very next one (n = 0)
included, in every state a run reaches before another store to that cell. Rests on D5 (log 5), for register 7 on D14
(log 14); the return address wraps by D2 (log 2). -/
def Obligations.StoredBytesAreFetchedAtOnce : Prop :=
  ∀ (s t u : State) (a k : Byte) (n : Nat) (ha : a.toNat < 8),
    storesElsewhere s.pushAddress n t → run n t = .next u → fetchAddress u k = s.pushAddress →
      (exec (.push a) s = .next t →
        fetchByte u k = if a.toNat = 7 then s.reg 7 - 1 else s.reg ⟨a.toNat, ha⟩) ∧
      (exec (.call a) s = .next t → fetchByte u k = s.pc + 2)

/-- The invariant `State.Inv` is kept by every step: the memory's canonical form, FL one of the four values of
spec/10 R30, and a stop record that says the truth about the instruction at PC (spec/60 R200, R211). FL's values rest on
D13 (log 13), the stop record on D4, D6 and D20 (logs 4, 6, 18), operand addresses on D3 (log 3), the memory's form on
log 25. -/
def Obligations.StepKeepsTheInvariant : Prop :=
  ∀ s t : State, s.Inv → step s = .next t → t.Inv

/-- Two memories in canonical form that read alike at every address are the same list (the model's own form, log 25). -/
def Obligations.CanonicalMemoriesReadAlikeAreEqual : Prop :=
  ∀ m m' : Memory, m.wf = true → m'.wf = true → (∀ a : Byte, m.read a = m'.read a) → m = m'

/-- spec/40 R116: `run` under fuel always answers a state, and running in two parts is running at once. Rests on D18
(log 17). -/
def Obligations.RunIsTotalAndComposes : Prop :=
  ∀ (m n : Nat) (s : State), ∃ t, run m s = .next t ∧ run (m + n) s = run n t

/-! ### Encoding (spec/30) -/

/-- spec/30 R82 to R85 and R90: words written out from the encoding tables decode to their instructions, one for each
format and family. The opcode values are PRESUMED (D1, log 1). -/
def Obligations.WrittenOutWordsDecode : Prop :=
  decode 0b10000010 0b00000101 0b11111110 = .ok (.ldi 5 254) ∧
    decode 0b10100010 0b00000110 0b00000001 = .ok (.mul 6 1) ∧
    decode 0b01000110 0b00000111 0b00000000 = .ok (.pop 7) ∧
    decode 0b01010101 0b00000010 0b10000010 = .ok (.jeq 2) ∧
    decode 0b00010001 0b01000111 0b00000000 = .ok .ret ∧
    decode 0b00000000 0b00000001 0b00000001 = .error (.unrecognizedOpcode 0)

/-- Under every opcode map that meets spec/30 R89, decoding the encoding of any instruction, with any bytes after it,
gives the instruction and those bytes (every operand at every value a byte admits). -/
def Obligations.DecodingAnEncodingGivesItBack : Prop :=
  ∀ opc : OpcodeMap, opc.Valid → ∀ (i : Instr) (rest : List Byte),
    decodeBytesWith opc (encodeWith opc i ++ rest) = .ok (i, rest)

/-- Under every opcode map that meets spec/30 R89, bytes that decode are the encoding of what they decode to: one word,
one instruction, no bit ignored (spec/30 R91). -/
def Obligations.EncodingADecodingGivesItBack : Prop :=
  ∀ opc : OpcodeMap, opc.Valid → ∀ (bs rest : List Byte) (i : Instr),
    decodeBytesWith opc bs = .ok (i, rest) → encodeWith opc i ++ rest = bs

/-- Under every opcode map that meets spec/30 R89, a running core whose memory holds an instruction's encoding at PC,
wrapping past address 255, runs that instruction. Address wrap rests on D3 (log 3). -/
def Obligations.EncodedInstructionAtPcIsRun : Prop :=
  ∀ opc : OpcodeMap, opc.Valid → ∀ (i : Instr) (s : State), s.running = true →
    (∀ (k : Nat) (hk : k < (encodeWith opc i).length),
      s.memRead (s.pc + BitVec.ofNat 8 k) = (encodeWith opc i)[k]) →
    stepWith opc s = exec i s

/-- spec/30 R88: operand bytes beyond an instruction's own are not looked at. -/
def Obligations.BytesBeyondTheInstructionAreIgnored : Prop :=
  ∀ (opc : OpcodeMap) (op a b a' b' : Byte) (m : Mnemonic), dispatch opc op = some m →
    (m.operandCount ≤ 1 → decodeWith opc op a b = decodeWith opc op a b') ∧
      (m.operandCount = 0 → decodeWith opc op a b = decodeWith opc op a' b')
end

