-- ==== Sys2Proof/Laws/Config.lean ====
section
/-! SUPPORT. The widths fixed by the types are the parameters of spec/00 R7. -/

namespace Sys2Proof

theorem byte_cells_eq_memSize : 2 ^ Config.standard.alen = Config.standard.memSize := rfl
theorem reg_count_eq_nregs (s : Machine.State) : s.x.toList.length = Config.standard.nregs := by
  simp [Config.standard]
theorem byte_width_eq_xlen : Byte = BitVec Config.standard.xlen := rfl
theorem pc_width_eq : Byte = BitVec Config.standard.pcWidth := rfl
theorem fl_width_eq : Byte = BitVec Config.standard.flWidth := rfl

/-- No instruction has more than MAX_OPERANDS operand bytes (spec/00 R7). -/
theorem operandCount_le_maxOperands (m : Mnemonic) : m.operandCount ≤ Config.standard.maxOperands := by
  cases m <;> decide

end Sys2Proof
end

