-- ==== Sys2Proof/Laws/Decode.lean ====
section
/-! SUPPORT. Dispatch and the decoder under any opcode map. -/

namespace Sys2Proof

theorem Mnemonic.mem_all (m : Mnemonic) : m ∈ Mnemonic.all := by cases m <;> decide

/-- What dispatch answers has the byte it was given. -/
theorem dispatch_some {opc : OpcodeMap} {op : Byte} {m : Mnemonic} (h : dispatch opc op = some m) :
    opc m = op := by
  simpa using List.find?_some h

/-- A byte is unrecognized exactly when it is the opcode of no instruction (spec/30 R92). -/
theorem dispatch_none {opc : OpcodeMap} {op : Byte} : dispatch opc op = none ↔ ∀ m, opc m ≠ op := by
  simp [dispatch, Mnemonic.mem_all]

/-- With pairwise different opcodes dispatch finds every instruction (spec/30 R89). -/
theorem dispatch_opc {opc : OpcodeMap} (h : opc.Valid) (m : Mnemonic) : dispatch opc (opc m) = some m := by
  cases hd : dispatch opc (opc m) with
  | none => exact absurd rfl (dispatch_none.mp hd m)
  | some n => rw [h.injective n m (dispatch_some hd)]

/-- All the decoder can do. -/
theorem decodeWith_cases (opc : OpcodeMap) (op a b : Byte) :
    (∃ m, dispatch opc op = some m ∧ decodeWith opc op a b = .ok (assemble m a b)) ∨
      (dispatch opc op = none ∧ decodeWith opc op a b = .error (.unrecognizedOpcode op)) := by
  unfold decodeWith
  cases dispatch opc op with
  | none => exact .inr ⟨rfl, rfl⟩
  | some m => exact .inl ⟨m, rfl, rfl⟩

/-- The default opcode bytes meet the constraints (spec/30 R90, its closing check). -/
theorem opcDefault_valid : opcDefault.Valid where
  injective := by
    intro m n
    cases m <;> cases n <;> decide
  operandCount := by
    intro m
    cases m <;> decide

theorem assemble_mnemonic (m : Mnemonic) (a b : Byte) : (assemble m a b).mnemonic = m := by
  cases m <;> rfl

end Sys2Proof
end

