-- ==== Sys2Proof/Laws/Memory.lean ====
section
/-! SUPPORT. The memory: what a write does to every read, and that every operation keeps the canonical form. -/

namespace Sys2Proof.Machine

theorem Memory.lookup_cons (j : Nat) (w : Byte) (rest : Memory) (k : Nat) :
    Memory.lookup ((j, w) :: rest) k = if j = k then w else Memory.lookup rest k := rfl

theorem Memory.lookup_insert (m : Memory) (n : Nat) (v : Byte) (k : Nat) :
    (m.insert n v).lookup k = if k = n then v else m.lookup k := by
  induction m with
  | nil => simp only [Memory.insert, Memory.lookup_cons, eq_comm]
  | cons c rest ih =>
    obtain ⟨j, w⟩ := c
    simp only [Memory.insert]
    split
    · simp only [Memory.lookup_cons, eq_comm]
    · split
      · subst n
        simp only [Memory.lookup_cons]
        grind
      · simp only [Memory.lookup_cons, ih]
        grind

theorem Memory.lookup_erase (m : Memory) (n k : Nat) :
    (m.erase n).lookup k = if k = n then Memory.unlisted else m.lookup k := by
  induction m with
  | nil => simp [Memory.erase, Memory.lookup]
  | cons c rest ih =>
    obtain ⟨j, w⟩ := c
    simp only [Memory.erase, List.filter_cons] at ih ⊢
    by_cases hj : j = n
    · subst j
      simp only [bne_self_eq_false, Bool.false_eq_true, if_false, ih, Memory.lookup]
      split <;> simp_all [eq_comm]
    · simp only [bne_iff_ne, ne_eq, hj, not_false_eq_true, if_true, Memory.lookup, ih]
      split <;> simp_all

/-- The law of the memory, for every memory, canonical or not (spec/20 R51, R52). -/
theorem Memory.read_write (m : Memory) (a v b : Byte) :
    (m.write a v).read b = if b = a then v else m.read b := by
  unfold Memory.write Memory.read
  by_cases hv : v = Memory.unlisted
  · simp [hv, Memory.lookup_erase, BitVec.toNat_inj]
  · simp [hv, Memory.lookup_insert, BitVec.toNat_inj]

theorem Memory.wfFrom_cons {lo k : Nat} {v : Byte} {rest : Memory} :
    Memory.wfFrom lo ((k, v) :: rest) = true ↔
      lo ≤ k ∧ k < 256 ∧ v ≠ Memory.unlisted ∧ Memory.wfFrom (k + 1) rest = true := by
  simp only [Memory.wfFrom, Bool.and_eq_true, decide_eq_true_eq, and_assoc]
  rfl

theorem Memory.wfFrom_mono {lo lo' : Nat} (h : lo' ≤ lo) {m : Memory} (hm : Memory.wfFrom lo m = true) :
    Memory.wfFrom lo' m = true := by
  cases m with
  | nil => rfl
  | cons c rest =>
    obtain ⟨hk, hrest⟩ := Memory.wfFrom_cons.mp hm
    exact Memory.wfFrom_cons.mpr ⟨h.trans hk, hrest⟩

theorem Memory.insert_wf {lo n : Nat} {v : Byte} (hlo : lo ≤ n) (hn : n < 256) (hv : v ≠ Memory.unlisted)
    {m : Memory} (hm : Memory.wfFrom lo m = true) : Memory.wfFrom lo (m.insert n v) = true := by
  induction m generalizing lo with
  | nil => exact Memory.wfFrom_cons.mpr ⟨hlo, hn, hv, rfl⟩
  | cons c rest ih =>
    obtain ⟨k, w⟩ := c
    obtain ⟨hk, hk', hw, hrest⟩ := Memory.wfFrom_cons.mp hm
    simp only [Memory.insert]
    split
    · exact Memory.wfFrom_cons.mpr ⟨hlo, hn, hv, Memory.wfFrom_cons.mpr ⟨by omega, hk', hw, hrest⟩⟩
    · split
      · subst n
        exact Memory.wfFrom_cons.mpr ⟨hk, hn, hv, hrest⟩
      · exact Memory.wfFrom_cons.mpr ⟨hk, hk', hw, ih (by omega) hrest⟩

theorem Memory.erase_wf {lo n : Nat} {m : Memory} (hm : Memory.wfFrom lo m = true) :
    Memory.wfFrom lo (m.erase n) = true := by
  induction m generalizing lo with
  | nil => rfl
  | cons c rest ih =>
    obtain ⟨k, w⟩ := c
    obtain ⟨hk, hk', hw, hrest⟩ := Memory.wfFrom_cons.mp hm
    simp only [Memory.erase, List.filter_cons] at ih ⊢
    split
    · exact Memory.wfFrom_cons.mpr ⟨hk, hk', hw, ih hrest⟩
    · exact Memory.wfFrom_mono (by omega) (ih hrest)

/-- Every write keeps the canonical form; reads change nothing, and these are all the operations. -/
theorem Memory.write_wf {m : Memory} (a v : Byte) (hm : m.wf = true) : (m.write a v).wf = true := by
  unfold Memory.write
  split
  · exact Memory.erase_wf hm
  · exact Memory.insert_wf (Nat.zero_le _) a.isLt ‹_› hm

/-- The memory after reset is canonical. -/
theorem Memory.reset_wf : State.reset.mem.wf = true := rfl

end Sys2Proof.Machine
end

