-- ==== Sys2Proof/Laws/State.lean ====
section
/-! SUPPORT. One lemma per field per update of the state, and per accessor, so that no later proof unfolds a record
update. -/

namespace Sys2Proof.Machine

@[simp] theorem State.setReg_x (s : State) (r : Reg) (v : Byte) : (s.setReg r v).x = s.x.set r v := rfl
@[simp] theorem State.setReg_pc (s : State) (r : Reg) (v : Byte) : (s.setReg r v).pc = s.pc := rfl
@[simp] theorem State.setReg_fl (s : State) (r : Reg) (v : Byte) : (s.setReg r v).fl = s.fl := rfl
@[simp] theorem State.setReg_mem (s : State) (r : Reg) (v : Byte) : (s.setReg r v).mem = s.mem := rfl
@[simp] theorem State.setReg_running (s : State) (r : Reg) (v : Byte) : (s.setReg r v).running = s.running := rfl
@[simp] theorem State.setReg_stopCause (s : State) (r : Reg) (v : Byte) : (s.setReg r v).stopCause = s.stopCause := rfl
@[simp] theorem State.setReg_stopInfo (s : State) (r : Reg) (v : Byte) : (s.setReg r v).stopInfo = s.stopInfo := rfl
@[simp] theorem State.setReg_out (s : State) (r : Reg) (v : Byte) : (s.setReg r v).out = s.out := rfl
@[simp] theorem State.setReg_memRead (s : State) (r : Reg) (v : Byte) (b : Byte) : (s.setReg r v).memRead b = s.memRead b := rfl

@[simp] theorem State.setPc_x (s : State) (v : Byte) : (s.setPc v).x = s.x := rfl
@[simp] theorem State.setPc_pc (s : State) (v : Byte) : (s.setPc v).pc = v := rfl
@[simp] theorem State.setPc_fl (s : State) (v : Byte) : (s.setPc v).fl = s.fl := rfl
@[simp] theorem State.setPc_mem (s : State) (v : Byte) : (s.setPc v).mem = s.mem := rfl
@[simp] theorem State.setPc_running (s : State) (v : Byte) : (s.setPc v).running = s.running := rfl
@[simp] theorem State.setPc_stopCause (s : State) (v : Byte) : (s.setPc v).stopCause = s.stopCause := rfl
@[simp] theorem State.setPc_stopInfo (s : State) (v : Byte) : (s.setPc v).stopInfo = s.stopInfo := rfl
@[simp] theorem State.setPc_out (s : State) (v : Byte) : (s.setPc v).out = s.out := rfl
@[simp] theorem State.setPc_reg (s : State) (v : Byte) (q : Reg) : (s.setPc v).reg q = s.reg q := rfl
@[simp] theorem State.setPc_memRead (s : State) (v : Byte) (b : Byte) : (s.setPc v).memRead b = s.memRead b := rfl

@[simp] theorem State.advancePc_x (s : State) (n : Byte) : (s.advancePc n).x = s.x := rfl
@[simp] theorem State.advancePc_pc (s : State) (n : Byte) : (s.advancePc n).pc = s.pc + n := rfl
@[simp] theorem State.advancePc_fl (s : State) (n : Byte) : (s.advancePc n).fl = s.fl := rfl
@[simp] theorem State.advancePc_mem (s : State) (n : Byte) : (s.advancePc n).mem = s.mem := rfl
@[simp] theorem State.advancePc_running (s : State) (n : Byte) : (s.advancePc n).running = s.running := rfl
@[simp] theorem State.advancePc_stopCause (s : State) (n : Byte) : (s.advancePc n).stopCause = s.stopCause := rfl
@[simp] theorem State.advancePc_stopInfo (s : State) (n : Byte) : (s.advancePc n).stopInfo = s.stopInfo := rfl
@[simp] theorem State.advancePc_out (s : State) (n : Byte) : (s.advancePc n).out = s.out := rfl
@[simp] theorem State.advancePc_reg (s : State) (n : Byte) (q : Reg) : (s.advancePc n).reg q = s.reg q := rfl
@[simp] theorem State.advancePc_memRead (s : State) (n : Byte) (b : Byte) : (s.advancePc n).memRead b = s.memRead b := rfl

@[simp] theorem State.setFl_x (s : State) (f : Byte) : (s.setFl f).x = s.x := rfl
@[simp] theorem State.setFl_pc (s : State) (f : Byte) : (s.setFl f).pc = s.pc := rfl
@[simp] theorem State.setFl_fl (s : State) (f : Byte) : (s.setFl f).fl = f := rfl
@[simp] theorem State.setFl_mem (s : State) (f : Byte) : (s.setFl f).mem = s.mem := rfl
@[simp] theorem State.setFl_running (s : State) (f : Byte) : (s.setFl f).running = s.running := rfl
@[simp] theorem State.setFl_stopCause (s : State) (f : Byte) : (s.setFl f).stopCause = s.stopCause := rfl
@[simp] theorem State.setFl_stopInfo (s : State) (f : Byte) : (s.setFl f).stopInfo = s.stopInfo := rfl
@[simp] theorem State.setFl_out (s : State) (f : Byte) : (s.setFl f).out = s.out := rfl
@[simp] theorem State.setFl_reg (s : State) (f : Byte) (q : Reg) : (s.setFl f).reg q = s.reg q := rfl
@[simp] theorem State.setFl_memRead (s : State) (f : Byte) (b : Byte) : (s.setFl f).memRead b = s.memRead b := rfl

@[simp] theorem State.memWrite_x (s : State) (a v : Byte) : (s.memWrite a v).x = s.x := rfl
@[simp] theorem State.memWrite_pc (s : State) (a v : Byte) : (s.memWrite a v).pc = s.pc := rfl
@[simp] theorem State.memWrite_fl (s : State) (a v : Byte) : (s.memWrite a v).fl = s.fl := rfl
@[simp] theorem State.memWrite_mem (s : State) (a v : Byte) : (s.memWrite a v).mem = s.mem.write a v := rfl
@[simp] theorem State.memWrite_running (s : State) (a v : Byte) : (s.memWrite a v).running = s.running := rfl
@[simp] theorem State.memWrite_stopCause (s : State) (a v : Byte) : (s.memWrite a v).stopCause = s.stopCause := rfl
@[simp] theorem State.memWrite_stopInfo (s : State) (a v : Byte) : (s.memWrite a v).stopInfo = s.stopInfo := rfl
@[simp] theorem State.memWrite_out (s : State) (a v : Byte) : (s.memWrite a v).out = s.out := rfl
@[simp] theorem State.memWrite_reg (s : State) (a v : Byte) (q : Reg) : (s.memWrite a v).reg q = s.reg q := rfl

@[simp] theorem State.output_x (s : State) (v : Byte) : (s.output v).x = s.x := rfl
@[simp] theorem State.output_pc (s : State) (v : Byte) : (s.output v).pc = s.pc := rfl
@[simp] theorem State.output_fl (s : State) (v : Byte) : (s.output v).fl = s.fl := rfl
@[simp] theorem State.output_mem (s : State) (v : Byte) : (s.output v).mem = s.mem := rfl
@[simp] theorem State.output_running (s : State) (v : Byte) : (s.output v).running = s.running := rfl
@[simp] theorem State.output_stopCause (s : State) (v : Byte) : (s.output v).stopCause = s.stopCause := rfl
@[simp] theorem State.output_stopInfo (s : State) (v : Byte) : (s.output v).stopInfo = s.stopInfo := rfl
@[simp] theorem State.output_out (s : State) (v : Byte) : (s.output v).out = s.out ++ [v] := rfl
@[simp] theorem State.output_reg (s : State) (v : Byte) (q : Reg) : (s.output v).reg q = s.reg q := rfl
@[simp] theorem State.output_memRead (s : State) (v : Byte) (b : Byte) : (s.output v).memRead b = s.memRead b := rfl

@[simp] theorem State.setRunning_x (s : State) : (s.setRunning).x = s.x := rfl
@[simp] theorem State.setRunning_pc (s : State) : (s.setRunning).pc = s.pc := rfl
@[simp] theorem State.setRunning_fl (s : State) : (s.setRunning).fl = s.fl := rfl
@[simp] theorem State.setRunning_mem (s : State) : (s.setRunning).mem = s.mem := rfl
@[simp] theorem State.setRunning_running (s : State) : (s.setRunning).running = true := rfl
@[simp] theorem State.setRunning_stopCause (s : State) : (s.setRunning).stopCause = s.stopCause := rfl
@[simp] theorem State.setRunning_stopInfo (s : State) : (s.setRunning).stopInfo = s.stopInfo := rfl
@[simp] theorem State.setRunning_out (s : State) : (s.setRunning).out = s.out := rfl
@[simp] theorem State.setRunning_reg (s : State) (q : Reg) : (s.setRunning).reg q = s.reg q := rfl
@[simp] theorem State.setRunning_memRead (s : State) (b : Byte) : (s.setRunning).memRead b = s.memRead b := rfl

@[simp] theorem stop_x (c : StopCause) (i : Byte) (s : State) : (stop c i s).x = s.x := rfl
@[simp] theorem stop_pc (c : StopCause) (i : Byte) (s : State) : (stop c i s).pc = s.pc := rfl
@[simp] theorem stop_fl (c : StopCause) (i : Byte) (s : State) : (stop c i s).fl = s.fl := rfl
@[simp] theorem stop_mem (c : StopCause) (i : Byte) (s : State) : (stop c i s).mem = s.mem := rfl
@[simp] theorem stop_running (c : StopCause) (i : Byte) (s : State) : (stop c i s).running = false := rfl
@[simp] theorem stop_stopCause (c : StopCause) (i : Byte) (s : State) : (stop c i s).stopCause = c := rfl
@[simp] theorem stop_stopInfo (c : StopCause) (i : Byte) (s : State) : (stop c i s).stopInfo = i := rfl
@[simp] theorem stop_out (c : StopCause) (i : Byte) (s : State) : (stop c i s).out = s.out := rfl
@[simp] theorem stop_reg (c : StopCause) (i : Byte) (s : State) (q : Reg) : (stop c i s).reg q = s.reg q := rfl
@[simp] theorem stop_memRead (c : StopCause) (i : Byte) (s : State) (b : Byte) : (stop c i s).memRead b = s.memRead b := rfl

/-- `raise` is `stop` (spec/60 R210). -/
@[simp] theorem raise_eq_stop (c : StopCause) (i : Byte) (s : State) : raise c i s = stop c i s := rfl

/-- The stack pointer is register 7 (spec/10 R22). -/
@[simp] theorem State.sp_eq_reg (s : State) : s.sp = s.reg 7 := rfl

@[simp] theorem State.setSp_eq_setReg (s : State) (v : Byte) : s.setSp v = s.setReg 7 v := rfl

@[simp] theorem State.pushAddress_eq (s : State) : s.pushAddress = s.reg 7 - 1 := rfl

@[simp] theorem State.equalFlag_eq (s : State) : s.equalFlag = s.fl[0] := rfl

/-- A register reads what was last written to it; every other register is untouched (spec/10 R20, R21). -/
@[simp] theorem State.setReg_reg (s : State) (r : Reg) (v : Byte) (q : Reg) :
    (s.setReg r v).reg q = if q = r then v else s.reg q := by
  simp [State.setReg, State.reg, Vector.getElem_set, Fin.ext_iff, eq_comm]

/-- A cell reads what was last written to it; every other cell is untouched (spec/20 R51, R52). -/
@[simp] theorem State.memWrite_memRead (s : State) (a v b : Byte) :
    (s.memWrite a v).memRead b = if b = a then v else s.memRead b :=
  Memory.read_write s.mem a v b

end Sys2Proof.Machine
end

