-- ==== Sys2Proof/Laws/Ops.lean ====
section
/-! SUPPORT. One lemma per shared operation: everything it can do. -/

namespace Sys2Proof.Machine

/-! ### Register operands (spec/30 R87) -/

theorem regidx_ok {b : Byte} (h : b.toNat < 8) : regidx b = .ok ⟨b.toNat, h⟩ := by simp [regidx, h]

theorem regidx_error {b : Byte} (h : 8 ≤ b.toNat) : regidx b = .error b := by
  simp [regidx, Nat.not_lt.mpr h]

theorem raiseInvalidRegister_eq (bad : Byte) (s : State) :
    raiseInvalidRegister bad s = .next (stop .invalidRegisterIndex bad s) := rfl

theorem withReg_ok {a : Byte} (h : a.toNat < 8) (s : State) (body : Reg → State) :
    withReg a s body = .next (body ⟨a.toNat, h⟩) := by simp [withReg, regidx_ok h]

theorem withReg_bad {a : Byte} (h : 8 ≤ a.toNat) (s : State) (body : Reg → State) :
    withReg a s body = .next (stop .invalidRegisterIndex a s) := by
  simp [withReg, regidx_error h, raiseInvalidRegister_eq]

/-- All a one-register instruction can do. -/
theorem withReg_cases {a : Byte} {s t : State} {body : Reg → State} (h : withReg a s body = .next t) :
    (∃ ha : a.toNat < 8, t = body ⟨a.toNat, ha⟩) ∨
      (8 ≤ a.toNat ∧ t = stop .invalidRegisterIndex a s) := by
  rcases Nat.lt_or_ge a.toNat 8 with ha | ha
  · rw [withReg_ok ha] at h
    exact .inl ⟨ha, by injection h with h; exact h.symm⟩
  · rw [withReg_bad ha] at h
    exact .inr ⟨ha, by injection h with h; exact h.symm⟩

theorem withRegs_ok {a b : Byte} (ha : a.toNat < 8) (hb : b.toNat < 8) (s : State) (body : Reg → Reg → State) :
    withRegs a b s body = .next (body ⟨a.toNat, ha⟩ ⟨b.toNat, hb⟩) := by
  simp [withRegs, regidx_ok ha, regidx_ok hb]

theorem withRegs_bad_a {a : Byte} (ha : 8 ≤ a.toNat) (b : Byte) (s : State) (body : Reg → Reg → State) :
    withRegs a b s body = .next (stop .invalidRegisterIndex a s) := by
  simp [withRegs, regidx_error ha, raiseInvalidRegister_eq]

theorem withRegs_bad_b {a b : Byte} (ha : a.toNat < 8) (hb : 8 ≤ b.toNat) (s : State)
    (body : Reg → Reg → State) :
    withRegs a b s body = .next (stop .invalidRegisterIndex b s) := by
  simp [withRegs, regidx_ok ha, regidx_error hb, raiseInvalidRegister_eq]

/-- All a two-register instruction can do. -/
theorem withRegs_cases {a b : Byte} {s t : State} {body : Reg → Reg → State}
    (h : withRegs a b s body = .next t) :
    (∃ (ha : a.toNat < 8) (hb : b.toNat < 8), t = body ⟨a.toNat, ha⟩ ⟨b.toNat, hb⟩) ∨
      (8 ≤ a.toNat ∧ t = stop .invalidRegisterIndex a s) ∨
      (a.toNat < 8 ∧ 8 ≤ b.toNat ∧ t = stop .invalidRegisterIndex b s) := by
  rcases Nat.lt_or_ge a.toNat 8 with ha | ha
  · rcases Nat.lt_or_ge b.toNat 8 with hb | hb
    · rw [withRegs_ok ha hb] at h
      exact .inl ⟨ha, hb, by injection h with h; exact h.symm⟩
    · rw [withRegs_bad_b ha hb] at h
      exact .inr (.inr ⟨ha, hb, by injection h with h; exact h.symm⟩)
  · rw [withRegs_bad_a ha] at h
    exact .inr (.inl ⟨ha, by injection h with h; exact h.symm⟩)

/-! ### The stack's micro-sequences (spec/43 R165) -/

/-- push_byte, whole: register 7 decremented, one cell written at the new SP, all else unchanged. -/
theorem pushByte_eq (v : State → Byte) (s : State) :
    pushByte v s =
      (s.setReg 7 (s.reg 7 - 1)).memWrite (s.reg 7 - 1) (v (s.setReg 7 (s.reg 7 - 1))) := by
  simp [pushByte]

/-- pop_byte, whole: the byte at SP delivered, then register 7 as it then is incremented. -/
theorem popByte_eq (deliver : Byte → State → State) (s : State) :
    popByte deliver s =
      (deliver (s.memRead (s.reg 7)) s).setReg 7 ((deliver (s.memRead (s.reg 7)) s).reg 7 + 1) := rfl

/-! ### The alu unit (spec/42) -/

theorem cmpFlags_eq (p q : Byte) :
    cmpFlags p q = if p < q then 0b100 else if q < p then 0b010 else 0b001 := by
  simp only [cmpFlags, gt_iff_lt]
  split
  · rfl
  · split <;> rfl

/-- The value CMP writes to FL, by the unsigned order of its operands (spec/42 R156). -/
theorem flOfFlags_cmpFlags (p q : Byte) :
    flOfFlags (cmpFlags p q) =
      if p.toNat < q.toNat then 0x04 else if q.toNat < p.toNat then 0x02 else 0x01 := by
  simp only [cmpFlags_eq, BitVec.lt_def]
  split
  · rfl
  · split <;> rfl

theorem aluWriteBack_add (ra : Reg) (p q : Byte) (s : State) :
    aluWriteBack ra (alu .add p q) s = s.setReg ra (p + q) := rfl

theorem aluWriteBack_mul (ra : Reg) (p q : Byte) (s : State) :
    aluWriteBack ra (alu .mul p q) s = s.setReg ra (p * q) := rfl

theorem aluWriteBack_cmp (ra : Reg) (p q : Byte) (s : State) :
    aluWriteBack ra (alu .cmp p q) s = s.setFl (flOfFlags (cmpFlags p q)) := rfl

/-! ### Conditional jumps (spec/44 R181) -/

theorem condJump_taken (ra : Reg) (s : State) : condJump true ra s = s.setPc (s.reg ra) := rfl

theorem condJump_not_taken (ra : Reg) (s : State) : condJump false ra s = s.advancePc 2 := rfl

/-! ### The load port (spec/70 R237) -/

/-- A load changes memory alone. -/
theorem loadFrom_frame (a : Byte) (image : List Byte) (s : State) :
    ∃ m, loadFrom a image s = { s with mem := m } := by
  induction image generalizing a s with
  | nil => exact ⟨s.mem, rfl⟩
  | cons v rest ih =>
    obtain ⟨m, hm⟩ := ih (a + 1) (loadByte a v s)
    exact ⟨m, by simp only [loadFrom, hm]; rfl⟩

theorem loadByte_wf (a v : Byte) {s : State} (h : s.mem.wf = true) : (loadByte a v s).mem.wf = true :=
  Memory.write_wf a v h

/-- A load keeps the canonical form. -/
theorem loadFrom_wf (a : Byte) (image : List Byte) {s : State} (h : s.mem.wf = true) :
    (loadFrom a image s).mem.wf = true := by
  induction image generalizing a s with
  | nil => exact h
  | cons v rest ih => exact ih (a + 1) (loadByte_wf a v h)

/-- Placing an instruction keeps the canonical form. -/
theorem placeAtPc_wf (op a b : Byte) {s : State} (h : s.mem.wf = true) : (placeAtPc op a b s).mem.wf = true :=
  Memory.write_wf _ _ (Memory.write_wf _ _ (Memory.write_wf _ _ h))

end Sys2Proof.Machine
end

