-- ==== Sys2Proof/Laws/PerInstr.lean ====
section
/-! SUPPORT. Statements made once per instruction. -/

/-- The shape of an instruction's encoding under any opcode map that meets spec/30 R89: its bytes begin with its opcode,
and there are as many as one more than bits 7:6 of the opcode byte say (spec/30 R80, R96). -/
def Sys2Proof.Laws.EncodingShape.Statement (i : Sys2Proof.Instr) : Prop :=
  ∀ opc : Sys2Proof.OpcodeMap, opc.Valid →
    (Sys2Proof.encodeWith opc i).head? = some (opc i.mnemonic) ∧
      (Sys2Proof.encodeWith opc i).length = 1 + Sys2Proof.nopsField (opc i.mnemonic)

namespace Sys2Proof.Laws.EncodingShape

/-- The general fact the lemmas below instantiate: the operand bytes are as many as the kind's operand count. -/
theorem of_operandBytes {i : Instr} (h : i.operandBytes.length = i.mnemonic.operandCount) : Statement i := by
  intro opc hv
  refine ⟨rfl, ?_⟩
  rw [encodeWith, List.length_cons, hv.operandCount, h, Nat.add_comm]

theorem ldi (a imm8 : Byte) : Statement (.ldi a imm8) := of_operandBytes rfl
theorem prn (a : Byte) : Statement (.prn a) := of_operandBytes rfl
theorem hlt : Statement .hlt := of_operandBytes rfl
theorem add (a b : Byte) : Statement (.add a b) := of_operandBytes rfl
theorem mul (a b : Byte) : Statement (.mul a b) := of_operandBytes rfl
theorem cmp (a b : Byte) : Statement (.cmp a b) := of_operandBytes rfl
theorem push (a : Byte) : Statement (.push a) := of_operandBytes rfl
theorem pop (a : Byte) : Statement (.pop a) := of_operandBytes rfl
theorem call (a : Byte) : Statement (.call a) := of_operandBytes rfl
theorem ret : Statement .ret := of_operandBytes rfl
theorem jmp (a : Byte) : Statement (.jmp a) := of_operandBytes rfl
theorem jeq (a : Byte) : Statement (.jeq a) := of_operandBytes rfl
theorem jne (a : Byte) : Statement (.jne a) := of_operandBytes rfl

end Sys2Proof.Laws.EncodingShape
end

