-- ==== Sys2Proof/Laws/Step.lean ====
section
/-! SUPPORT. All a step can do. -/

namespace Sys2Proof.Machine

theorem step_eq (s : State) (h : s.running = true) :
    step s = runDecoded s (decodeAtPc Config.standard.opc s) := by
  simp [step, stepWith, h]

/-- A step that gives a next state ran the decoded instruction, or stopped on an unrecognized opcode. -/
theorem stepWith_cases {opc : OpcodeMap} {s t : State} (h : stepWith opc s = .next t) :
    s.running = true ∧
      ((∃ i, decodeAtPc opc s = .ok i ∧ exec i s = .next t) ∨
        (decodeAtPc opc s = .error (.unrecognizedOpcode (fetchByte s 0)) ∧
          t = stop .unrecognizedOpcode (fetchByte s 0) s)) := by
  unfold stepWith at h
  split at h
  · refine ⟨‹_›, ?_⟩
    rcases decodeWith_cases opc (fetchByte s 0) (fetchByte s 1) (fetchByte s 2) with
      ⟨m, -, hm⟩ | ⟨-, hn⟩
    · refine .inl ⟨_, hm, ?_⟩
      rw [decodeAtPc, hm, runDecoded] at h
      exact h
    · refine .inr ⟨hn, ?_⟩
      rw [decodeAtPc, hn, runDecoded] at h
      injection h with h
      exact h.symm
  · cases h

/-- What the fetch reads depends on PC and memory alone. -/
theorem fetchByte_eq (s : State) (k : Byte) : fetchByte s k = s.memRead (s.pc + k) := rfl

/-- The three addresses of an instruction differ, so each placed byte is what its fetch reads. -/
theorem placeAtPc_fetch (op a b : Byte) (s : State) :
    fetchByte (placeAtPc op a b s) 0 = op ∧ fetchByte (placeAtPc op a b s) 1 = a ∧
      fetchByte (placeAtPc op a b s) 2 = b := by
  have h01 : (s.pc + 0 : Byte) ≠ s.pc + 1 := by bv_omega
  have h02 : (s.pc + 0 : Byte) ≠ s.pc + 2 := by bv_omega
  have h12 : (s.pc + 1 : Byte) ≠ s.pc + 2 := by bv_omega
  simp only [fetchByte, placeAtPc, fetchAddress, State.memWrite_memRead, State.memWrite_pc]
  simp only [h01, h02, h12, if_true, if_false, and_self]

/-- The state with a table word placed runs that word's instruction as its very next step. -/
theorem withFetchWord_runs {nbits w : Nat} {i : Instr} (h : decodeTableWord nbits w = some i) (s : State) :
    step (s.withFetchWord nbits w) = exec i (s.withFetchWord nbits w) := by
  have hd : decodeAtPc Config.standard.opc (s.withFetchWord nbits w) =
      decode (tableByte nbits w 0) (tableByte nbits w 1) (tableByte nbits w 2) := by
    obtain ⟨h0, h1, h2⟩ := placeAtPc_fetch (tableByte nbits w 0) (tableByte nbits w 1) (tableByte nbits w 2) s
    change decodeWith _ (fetchByte (placeAtPc _ _ _ s) 0) (fetchByte (placeAtPc _ _ _ s) 1)
      (fetchByte (placeAtPc _ _ _ s) 2) = _
    rw [h0, h1, h2]
    rfl
  rw [step_eq _ rfl, hd]
  unfold decodeTableWord at h
  split at h
  · injection h with h
    rename_i j hj
    rw [hj, h]
    rfl
  · cases h

end Sys2Proof.Machine
end

