-- ==== Sys2Proof/Tests/Slice0.lean ====
section
/-! SUPPORT. The model's own tests: ill-formed terms, decoding of written-out words, single steps, and a witness for
every statement that has hypotheses. Expected results come from spec/95_test_vectors.md (the vector is named) or from the
rule named. -/

namespace Sys2Proof.Tests

open Sys2Proof.Machine

/-! ### Helpers -/

/-- A running state with the given registers, PC and FL, and bytes from PC on. -/
def at_ (pc : Byte) (bytes : List Byte) (x : Vector Byte 8) (fl : Byte := 0) : State :=
  loadFrom pc bytes { State.reset with pc := pc, x := x, fl := fl }

/-- The next state, if the outcome is one. -/
def nextOf : Result → Option State
  | .next t => some t
  | _ => none

/-- One field (or a tuple of fields) after one step. -/
def stepView {α : Type} (s : State) (f : State → α) : Option α := (nextOf (step s)).map f

/-! ### WellFormed refuses each ill-formed operand (spec/30 R95) -/

theorem test_illformed_ldi : (Instr.ldi 8 0).wellFormed = false := by decide
theorem test_illformed_prn : (Instr.prn 8).wellFormed = false := by decide
theorem test_illformed_add_a : (Instr.add 8 0).wellFormed = false := by decide
theorem test_illformed_add_b : (Instr.add 0 8).wellFormed = false := by decide
theorem test_illformed_mul_a : (Instr.mul 255 0).wellFormed = false := by decide
theorem test_illformed_mul_b : (Instr.mul 0 255).wellFormed = false := by decide
theorem test_illformed_cmp_a : (Instr.cmp 8 7).wellFormed = false := by decide
theorem test_illformed_cmp_b : (Instr.cmp 7 8).wellFormed = false := by decide
theorem test_illformed_push : (Instr.push 8).wellFormed = false := by decide
theorem test_illformed_pop : (Instr.pop 128).wellFormed = false := by decide
theorem test_illformed_call : (Instr.call 8).wellFormed = false := by decide
theorem test_illformed_jmp : (Instr.jmp 15).wellFormed = false := by decide
theorem test_illformed_jeq : (Instr.jeq 8).wellFormed = false := by decide
theorem test_illformed_jne : (Instr.jne 8).wellFormed = false := by decide
theorem test_wellformed_boundary : (Instr.ldi 7 255).wellFormed = true ∧ (Instr.add 7 7).wellFormed = true := by decide

/-! ### Decoding: each constructor's word, written out from spec/30 R82 to R85 and R90, and its encoding -/

theorem test_decode_ldi : decode 0b10000010 0b00000011 0b11111111 = .ok (.ldi 3 255) := rfl
theorem test_decode_prn : decode 0b01000111 0b00000101 0b10101010 = .ok (.prn 5) := rfl
theorem test_decode_hlt : decode 0b00000001 0b00000111 0b00000110 = .ok .hlt := rfl
theorem test_decode_add : decode 0b10100000 0b00000001 0b00000110 = .ok (.add 1 6) := rfl
theorem test_decode_mul : decode 0b10100010 0b00000010 0b00000101 = .ok (.mul 2 5) := rfl
theorem test_decode_cmp : decode 0b10100111 0b00000100 0b00000011 = .ok (.cmp 4 3) := rfl
theorem test_decode_push : decode 0b01000101 0b00000111 0b00000001 = .ok (.push 7) := rfl
theorem test_decode_pop : decode 0b01000110 0b00000110 0b00000001 = .ok (.pop 6) := rfl
theorem test_decode_call : decode 0b01010000 0b00000001 0b00000010 = .ok (.call 1) := rfl
theorem test_decode_ret : decode 0b00010001 0b00000001 0b00000010 = .ok .ret := rfl
theorem test_decode_jmp : decode 0b01010100 0b00000010 0b00000001 = .ok (.jmp 2) := rfl
theorem test_decode_jeq : decode 0b01010101 0b00000100 0b00000001 = .ok (.jeq 4) := rfl
theorem test_decode_jne : decode 0b01010110 0b00000101 0b00000001 = .ok (.jne 5) := rfl

/-- V-UNK3: some of the 243 bytes that are no opcode. -/
theorem test_unrecognized_bytes :
    [0x00, 0x02, 0x83, 0x84, 0xA1, 0x65, 0x66, 0x48, 0xC0, 0xFF].all
      (fun b : Byte => dispatch opcDefault b == none) = true := by decide

/-- spec/opcode_table.json numbers the opcode byte as bits 7:0; the operand bytes are zero when the row has 8 bits. -/
theorem test_table_word_short : decodeTableWord 8 0x82 = some (.ldi 0 0) := by decide
theorem test_table_word_long : decodeTableWord 24 0x0605A0 = some (.add 5 6) := by decide
theorem test_table_word_refused : decodeTableWord 8 0x00 = none := by decide

/-- P4's image, its instructions encoded one after the other. -/
theorem test_encode_p4 :
    [Instr.ldi 1 8, .call 1, .prn 0, .hlt, .ldi 0 42, .ret].flatMap encode =
      [0x82, 0x01, 0x08, 0x50, 0x01, 0x47, 0x00, 0x01, 0x82, 0x00, 0x2A, 0x11] := by decide

theorem test_decode_truncated : decodeBytes [0x82, 0x00] = .error .truncated := rfl

/-- C3: with the default values bit 4 is set on the instructions that load PC. -/
theorem test_hint_bit : writesRegHint (opcDefault .call) = true ∧ writesRegHint (opcDefault .ldi) = false := by decide

/-! ### Single steps -/

/-- V-LDI3: LDI R7 moves the stack pointer. -/
theorem test_ldi_sp :
    stepView (at_ 0 [0x82, 0x07, 0x20] State.reset.x) (fun t => (t.reg 7, t.pc)) = some (0x20, 3) := by decide

/-- V-LDI6: operand bytes and PC wrap past address 255. -/
theorem test_ldi_wraps :
    stepView (at_ 0xFE [0x82, 0x02, 0x82] State.reset.x) (fun t => (t.reg 2, t.pc)) = some (0x82, 0x01) := by decide

/-- V-PRN3: PRN R7 emits the stack pointer, 244. -/
theorem test_prn_sp :
    stepView (at_ 0 [0x47, 0x07] State.reset.x) (fun t => (t.out, t.pc)) = some ([244], 2) := by decide

/-- V-PRN5: nothing is emitted and PC stays when the operand names no register. -/
theorem test_prn_bad :
    stepView (at_ 0 [0x47, 0x09] State.reset.x)
      (fun t => (t.out, t.pc, t.running, t.stopCause.code, t.stopInfo)) = some ([], 0, false, 3, 9) := by decide

/-- V-HLT1. -/
theorem test_hlt :
    stepView (at_ 5 [0x01] State.reset.x)
      (fun t => (t.running, t.stopCause.code, t.stopInfo, t.pc)) = some (false, 1, 0, 5) := by decide

/-- V-ADD1: 200 + 100 = 44. -/
theorem test_add_wraps :
    stepView (at_ 0 [0xA0, 0x00, 0x01] #v[200, 100, 0, 0, 0, 0, 0, 0xF4])
      (fun t => (t.reg 0, t.reg 1, t.pc)) = some (44, 100, 3) := by decide

/-- V-ADD7: operand a is reported, not b. -/
theorem test_add_reports_a :
    stepView (at_ 0 [0xA0, 0x0A, 0x09] State.reset.x) (fun t => (t.stopCause, t.stopInfo)) =
      some (.invalidRegisterIndex, 0x0A) := by decide

/-- V-MUL3: 255 * 255 = 1. -/
theorem test_mul_low_byte :
    stepView (at_ 0 [0xA2, 0x03, 0x03] #v[0, 0, 0, 0xFF, 0, 0, 0, 0xF4]) (fun t => t.reg 3) = some 1 := by decide

/-- V-MUL1: 8 * 9 = 72 in the first register alone. -/
theorem test_mul_destination :
    stepView (at_ 0 [0xA2, 0x00, 0x01] #v[8, 9, 0, 0, 0, 0, 0, 0xF4]) (fun t => (t.reg 0, t.reg 1)) =
      some (72, 9) := by decide

/-- V-CMP4: unsigned, 255 is greater than 1. -/
theorem test_cmp_unsigned :
    stepView (at_ 0 [0xA7, 0x00, 0x01] #v[0xFF, 1, 0, 0, 0, 0, 0, 0xF4]) (fun t => (t.fl, t.reg 0)) =
      some (0x02, 0xFF) := by decide

/-- V-CMP6: the Less flag from before is cleared. -/
theorem test_cmp_overwrites :
    stepView (at_ 0 [0xA7, 0x00, 0x01] #v[5, 5, 0, 0, 0, 0, 0, 0xF4] 0x04) (fun t => t.fl) = some 0x01 := by decide

/-- V-STK4: SP wraps down from 0. -/
theorem test_push_wraps :
    stepView (at_ 0 [0x45, 0x00] #v[0x5A, 0, 0, 0, 0, 0, 0, 0]) (fun t => (t.reg 7, t.memRead 0xFF)) =
      some (0xFF, 0x5A) := by decide

/-- V-STK7: PUSH R7 stores the decremented SP. -/
theorem test_push_sp :
    stepView (at_ 0 [0x45, 0x07] State.reset.x) (fun t => (t.reg 7, t.memRead 0xF3)) = some (0xF3, 0xF3) := by decide

/-- V-STK2: the popped cell keeps its byte. -/
theorem test_pop :
    stepView ((at_ 10 [0x46, 0x01] #v[0, 0, 0, 0, 0, 0, 0, 0xF3]).memWrite 0xF3 1)
      (fun t => (t.reg 1, t.reg 7, t.memRead 0xF3, t.pc)) = some (1, 0xF4, 1, 12) := by decide

/-- V-STK8: POP R7 increments the popped byte. -/
theorem test_pop_sp :
    stepView ((at_ 0 [0x46, 0x07] #v[0, 0, 0, 0, 0, 0, 0, 0xF3]).memWrite 0xF3 0x33) (fun t => t.reg 7) =
      some 0x34 := by decide

/-- V-CALL2: the return address wraps to 0, and a written 0 leaves the memory list as it was. -/
theorem test_call_wraps :
    stepView (at_ 0xFE [0x50, 0x02] #v[0, 0, 9, 0, 0, 0, 0, 0xF4]) (fun t => (t.reg 7, t.pc, t.mem)) =
      some (0xF3, 9, [(0xFE, 0x50), (0xFF, 0x02)]) := by decide

/-- V-CALL3: CALL R7 jumps to the decremented SP. -/
theorem test_call_sp :
    stepView (at_ 0 [0x50, 0x07] State.reset.x) (fun t => (t.reg 7, t.memRead 0xF3, t.pc)) =
      some (0xF3, 2, 0xF3) := by decide

/-- V-RET1. -/
theorem test_ret :
    stepView ((at_ 0 [0x11] #v[0, 0, 0, 0, 0, 0, 0, 0xF3]).memWrite 0xF3 5) (fun t => (t.pc, t.reg 7)) =
      some (5, 0xF4) := by decide

/-- V-JMP3: PC stays when the operand names no register. -/
theorem test_jmp_bad :
    stepView (at_ 0 [0x54, 0x0F] State.reset.x) (fun t => (t.pc, t.stopInfo)) = some (0, 0x0F) := by decide

/-- V-JMP2. -/
theorem test_jmp :
    stepView (at_ 3 [0x54, 0x01] #v[0, 0xFE, 0, 0, 0, 0, 0, 0xF4]) (fun t => t.pc) = some 0xFE := by decide

/-- V-JEQ1 and V-JEQ3: taken on E, not on G. -/
theorem test_jeq :
    [0x01, 0x02].map (fun fl : Byte =>
      stepView (at_ 12 [0x55, 0x02] #v[0, 0, 0x13, 0, 0, 0, 0, 0xF4] fl) (fun t => t.pc)) =
      [some 0x13, some 0x0E] := by decide

/-- V-JEQ5: the register byte is checked although the jump would not be taken. -/
theorem test_jeq_bad :
    stepView (at_ 0 [0x55, 0x08] State.reset.x) (fun t => (t.stopCause, t.stopInfo)) =
      some (.invalidRegisterIndex, 8) := by decide

/-- V-JNE2 and V-JNE3: taken on L, not on E. -/
theorem test_jne :
    [0x04, 0x01].map (fun fl : Byte =>
      stepView (at_ 24 [0x56, 0x04] #v[0, 0, 0, 0, 0x0F, 0, 0, 0xF4] fl) (fun t => t.pc)) =
      [some 0x0F, some 0x1A] := by decide

/-- V-JNE4: with FL as reset leaves it, JNE jumps. -/
theorem test_jne_reset_flags :
    stepView (at_ 3 [0x56, 0x00] #v[6, 0, 0, 0, 0, 0, 0, 0xF4]) (fun t => t.pc) = some 6 := by decide

/-- V-UNK2: the byte after an unrecognized opcode is never looked at. -/
theorem test_unrecognized :
    stepView (at_ 0 [0x03, 0xFF] State.reset.x) (fun t => (t.stopCause, t.stopInfo, t.pc)) =
      some (.unrecognizedOpcode, 3, 0) := by decide

/-- V-STK11's last PUSH (at 6, onto its own operand byte at 7): the register index is the byte fetched before. -/
theorem test_operands_fetched_first :
    stepView (at_ 6 [0x45, 0x00] #v[9, 0, 0, 0, 0, 0, 0, 8]) (fun t => (t.memRead 7, t.reg 7)) = some (9, 7) := by decide

/-- spec/40 R117: no step from a stopped state. -/
theorem test_stopped : nextOf (step { State.reset with running := false }) = none := by decide

/-- A memory list in canonical form stays so: a written 0 removes its entry. -/
theorem test_write_zero_removes : Memory.write [(3, 1), (5, 2)] 3 0 = [(5, 2)] := by decide

/-- spec/70 R237: P1's image lies at 0 to 5, its zero byte unlisted. -/
theorem test_boot_p1 :
    (boot [0x82, 0x00, 0x08, 0x47, 0x00, 0x01]).map (fun s => s.mem) =
      some [(0, 0x82), (2, 0x08), (3, 0x47), (5, 0x01)] := by decide

/-! ### Witnesses: states and operands that meet all hypotheses of a statement together -/

/-- Registers for the witnesses. -/
def regs : Vector Byte 8 := #v[1, 255, 0, 3, 4, 5, 6, 9]

/-- A running state for the witnesses: SP is 9, PUSH R0 stands at 6. -/
def sample : State := at_ 6 [0x45, 0x00, 0x47] regs 0x02

/-- Boundary images: 256 bytes (every address inside), 0 bytes (every address beyond). -/
theorem witness_LoadPlacesImageAndZeroBeyond :
    (List.replicate 256 (1 : Byte)).length ≤ 256 ∧ (255 : Byte).toNat < (List.replicate 256 (1 : Byte)).length ∧
      ([] : List Byte).length ≤ 256 ∧ ([] : List Byte).length ≤ (0 : Byte).toNat := by
  simp only [List.length_replicate, List.length_nil]
  decide

theorem witness_LongImageIsRefused : 256 < (List.replicate 257 (1 : Byte)).length := by
  simp only [List.length_replicate]
  decide

/-- The hypothesis of LdiLoadsItsImmediate, LdiThenPrnEmitsTheImmediate, PrnEmitsItsRegister, PushStoresAtDecrementedSp,
CallPushesReturnAddressAndJumps, JmpLoadsPcFromItsRegister and JeqAndJneBranchOnEqual, at both ends of its range. -/
theorem witness_one_register_operand : (0 : Byte).toNat < 8 ∧ (7 : Byte).toNat < 8 := by decide

/-- The hypotheses of AddKeepsTheSumModulo256 and MulKeepsTheProductModulo256. -/
theorem witness_two_register_operands : (0 : Byte).toNat < 8 ∧ (7 : Byte).toNat < 8 := by decide

/-- Each clause of CmpWritesTheUnsignedOrder at the ends of the range: 0 below 255, 255 above 0, 255 equal to 255. -/
theorem witness_CmpWritesTheUnsignedOrder :
    (sample.reg 2).toNat < (sample.reg 1).toNat ∧ sample.reg 2 = 0 ∧ sample.reg 1 = 255 ∧
      sample.reg 1 = sample.reg 1 := by decide

theorem witness_CmpIsSymmetric :
    (0 : Byte).toNat < 8 ∧ (1 : Byte).toNat < 8 ∧
      ∃ t u, exec (.cmp 0 1) sample = .next t ∧ exec (.cmp 1 0) sample = .next u ∧ t.fl = 0x04 ∧ u.fl = 0x02 :=
  ⟨by decide, by decide, _, _, rfl, rfl, by decide, by decide⟩

theorem witness_AddAndMulAreRightForSignedBytes :
    (0 : Byte).toNat < 8 ∧ (1 : Byte).toNat < 8 ∧
      ∃ t u, exec (.add 0 1) sample = .next t ∧ exec (.mul 0 1) sample = .next u :=
  ⟨by decide, by decide, _, _, rfl, rfl⟩

/-- Both clauses of PopDeliversThenIncrementsSp: an operand other than 7, next to it, and 7 itself. -/
theorem witness_PopDeliversThenIncrementsSp :
    (6 : Byte).toNat < 8 ∧ (6 : Byte).toNat ≠ 7 ∧ (7 : Byte).toNat < 8 ∧ (7 : Byte).toNat = 7 := by decide

theorem witness_PushThenPopRoundTrips :
    (6 : Byte).toNat < 8 ∧ (0 : Byte).toNat < 8 ∧ (6 : Byte).toNat ≠ 7 ∧ (0 : Byte).toNat ≠ 7 := by decide

/-- The longest list of pushes, and its last pushed byte. -/
theorem witness_PushesStackDownwards :
    (∀ a ∈ List.replicate 256 (6 : Byte), a.toNat < 7) ∧ (List.replicate 256 (6 : Byte)).length ≤ 256 ∧
      255 < (List.replicate 256 (6 : Byte)).length ∧ (6 : Reg).val = (6 : Byte).toNat := by
  refine ⟨?_, by simp only [List.length_replicate, le_refl], by simp only [List.length_replicate]; decide, by decide⟩
  intro a ha
  rw [List.eq_of_mem_replicate ha]
  decide

/-- The last clause of PushesStackDownwards: one push leaves address 0 alone when SP is 9. -/
theorem witness_PushesStackDownwards_frame :
    ∀ j < [(0 : Byte)].length, (0 : Byte) ≠ sample.reg 7 - BitVec.ofNat 8 (j + 1) := by decide

theorem witness_RetResumesAfterItsCall :
    (0 : Byte).toNat < 8 ∧ ∃ t, exec (.call 0) sample = .next t ∧ t.reg 7 = 8 ∧ t.memRead 8 = 8 :=
  ⟨by decide, _, rfl, by decide, by decide⟩

/-- V-JMP1. -/
theorem witness_JmpToItselfRepeatsTheState :
    let s := at_ 3 [0x54, 0x03] regs
    (3 : Byte).toNat < 8 ∧ s.running = true ∧
      decode (s.memRead s.pc) (s.memRead (s.pc + 1)) (s.memRead (s.pc + 2)) = .ok (.jmp 3) ∧ s.reg 3 = s.pc :=
  ⟨by decide, by decide, rfl, by decide⟩

/-- The first bad byte at the ends of its range, as operand a and as operand b. -/
theorem witness_BadRegisterByteStopsWithNothingWritten :
    (Instr.ldi 8 0).firstBadReg = some 8 ∧ (Instr.add 255 8).firstBadReg = some 255 ∧
      (Instr.cmp 7 8).firstBadReg = some 8 := by decide

theorem witness_LegalInstructionsCompleteAndKeepRunning :
    (Instr.mul 0 7).wellFormed = true ∧ Instr.mul 0 7 ≠ .hlt ∧ Instr.hlt.wellFormed = true := by decide

/-- Also the hypotheses of EveryMapLeaves243BytesThatStop, with `opcDefault_valid`. -/
theorem witness_UnrecognizedOpcodeStopsWithItsByte :
    State.reset.running = true ∧ ∀ m : Mnemonic, Config.standard.opc m ≠ State.reset.memRead State.reset.pc := by
  refine ⟨rfl, ?_⟩
  intro m
  cases m <;> decide

theorem witness_StepHasExactlyOneOfThreeOutcomes :
    sample.running = true ∧ ({ sample with running := false } : State).running = false := by decide

theorem witness_StoppedCoreTakesNoStep : ({ sample with running := false } : State).running = false := rfl

/-- A step that keeps running, and one that clears it: both sides of RunningIsClearedExactlyByTheStops; the second meets
StopsArePrecise too. -/
theorem witness_RunningIsClearedExactlyByTheStops :
    (∃ t, step sample = .next t ∧ t.running = true) ∧
      ∃ t, step (at_ 0 [0x47, 0x08] regs) = .next t ∧ t.running = false :=
  ⟨⟨_, rfl, by decide⟩, _, rfl, by decide⟩

theorem witness_StepRunsTheDecodedInstruction :
    sample.running = true ∧
      decode (sample.memRead sample.pc) (sample.memRead (sample.pc + 1)) (sample.memRead (sample.pc + 2)) =
        .ok (.push 0) :=
  ⟨by decide, rfl⟩

/-- Each clause of RegistersReadAndWrittenAreTheTables: a register not written; one neither read nor written; one written
but not read. -/
theorem witness_RegistersReadAndWrittenAreTheTables :
    (∃ t, exec (.pop 0) sample = .next t) ∧ (Instr.pop 0).wellFormed = true ∧
      ¬ writesReg (.pop 0) 6 ∧ ¬ readsReg (.pop 0) sample 6 ∧
      writesReg (.pop 0) 0 ∧ ¬ readsReg (.pop 0) sample 0 :=
  ⟨⟨_, rfl⟩, by decide, by simp [writesReg], by simp [readsReg], by simp [writesReg], by simp [readsReg]⟩

/-- Each clause of OnlyCmpWritesFlAndOnlyBitZeroIsRead: an instruction other than CMP; a CMP; a JEQ under an FL with the
same bit 0 (0x02 and 0x04). -/
theorem witness_OnlyCmpWritesFlAndOnlyBitZeroIsRead :
    ((∃ t, exec (.add 0 1) sample = .next t) ∧ ∀ a b, Instr.add 0 1 ≠ .cmp a b) ∧
      ((0 : Byte).toNat < 8 ∧ (7 : Byte).toNat < 8 ∧ ∃ t, exec (.cmp 0 7) sample = .next t) ∧
      ((∃ t, exec (.jeq 7) sample = .next t) ∧ (0x04 : Byte).getLsbD 0 = sample.fl.getLsbD 0) :=
  ⟨⟨⟨_, rfl⟩, by simp⟩, ⟨by decide, by decide, _, rfl⟩, ⟨_, rfl⟩, by decide⟩

theorem witness_GreaterAndLessFlagsNeverSteerARun :
    (0x04 : Byte).getLsbD 0 = sample.fl.getLsbD 0 ∧ ∃ t, run 1 sample = .next t :=
  ⟨by decide, _, rfl⟩

theorem witness_OnlyPushAndCallWriteMemory :
    ∃ t, exec (.push 0) sample = .next t ∧ t.memRead 8 ≠ sample.memRead 8 :=
  ⟨_, rfl, by decide⟩

/-- Each clause of OutputIsAppendedByPrnAndNeverRead: a PRN of a legal register, and a PRN that is none. -/
theorem witness_OutputIsAppendedByPrnAndNeverRead :
    (∃ t, exec (.prn 1) sample = .next t ∧ t.out = [255]) ∧
      (∃ t, exec (.prn 8) sample = .next t) ∧ ∀ a : Byte, a.toNat < 8 → Instr.prn 8 ≠ .prn a :=
  ⟨⟨_, rfl, by decide⟩, ⟨_, rfl⟩, by intro a ha h; injection h with h; subst h; exact absurd ha (by decide)⟩

theorem witness_PlainInstructionsAdvancePcByTheirLength :
    (Instr.push 0).wellFormed = true ∧ (∃ t, exec (.push 0) sample = .next t) ∧
      (Instr.push 0).mnemonic ∉ [Mnemonic.hlt, .call, .ret, .jmp, .jeq, .jne] :=
  ⟨by decide, ⟨_, rfl⟩, by decide⟩

/-- P1's image meets the hypothesis of the second clause of ResetMeetsInvariant. -/
theorem witness_ResetMeetsInvariant : ∃ s, boot [0x82, 0x00, 0x08, 0x47, 0x00, 0x01] = some s := ⟨_, rfl⟩

/-- The two clauses of StoredBytesAreFetchedAtOnce at n = 0. P8 part b: the PUSH at 6 stores at 8, where the next fetch
begins, with register 0 and with register 7; and a CALL that jumps to the cell it stored. -/
theorem witness_StoredBytesAreFetchedAtOnce_next :
    (0 : Byte).toNat < 8 ∧ (∃ t, exec (.push 0) sample = .next t ∧ fetchAddress t 0 = sample.pushAddress ∧
        run 0 t = .next t ∧ storesElsewhere sample.pushAddress 0 t) ∧
      (7 : Byte).toNat < 8 ∧ (∃ t, exec (.push 7) sample = .next t ∧ fetchAddress t 0 = sample.pushAddress ∧
        run 0 t = .next t ∧ storesElsewhere sample.pushAddress 0 t) ∧
      ∃ t, exec (.call 7) sample = .next t ∧ fetchAddress t 0 = sample.pushAddress ∧
        run 0 t = .next t ∧ storesElsewhere sample.pushAddress 0 t :=
  ⟨by decide, ⟨_, rfl, by decide, rfl, trivial⟩, by decide, ⟨_, rfl, by decide, rfl, trivial⟩,
    _, rfl, by decide, rfl, trivial⟩

/-- A step that runs a PRN stores nowhere. -/
theorem storesElsewhere_one_of_prn {s : State} {b : Byte} (c : Byte)
    (h : decodeAtPc Config.standard.opc s = .ok (.prn b)) : storesElsewhere c 1 s := by
  refine fun t _ => ⟨fun a _ h' => ?_, trivial⟩
  rw [h] at h'
  rcases h' with h' | h' <;> injection h' with h' <;> cases h'

/-- A later fetch, the PUSH clause: PUSH R0 at 6 stores at 2, the next step is a PRN at 8, and byte 248 of the
instruction at 10 lies at 2. -/
theorem witness_StoredBytesAreFetchedAtOnce_later_push :
    let s := at_ 6 [0x45, 0x00, 0x47, 0x00] #v[1, 0, 0, 0, 0, 0, 0, 3]
    (0 : Byte).toNat < 8 ∧ ∃ t u, exec (.push 0) s = .next t ∧ run 1 t = .next u ∧
      fetchAddress u 248 = s.pushAddress ∧ storesElsewhere s.pushAddress 1 t :=
  ⟨by decide, _, _, rfl, rfl, by decide, storesElsewhere_one_of_prn (b := 0) _ rfl⟩

/-- The CALL clause: CALL R3 at 3 stores at 2 and goes to 0, where a PRN stands; byte 0 of the instruction after it lies
at 2. -/
theorem witness_StoredBytesAreFetchedAtOnce_later_call :
    let s := (at_ 3 [0x50, 0x03] #v[1, 0, 0, 0, 0, 0, 0, 3]).memWrite 0 0x47
    (3 : Byte).toNat < 8 ∧ ∃ t u, exec (.call 3) s = .next t ∧ run 1 t = .next u ∧
      fetchAddress u 0 = s.pushAddress ∧ storesElsewhere s.pushAddress 1 t :=
  ⟨by decide, _, _, rfl, rfl, by decide, storesElsewhere_one_of_prn (b := 0) _ rfl⟩

/-- A state other than reset, with memory and FL in use, and its step. -/
theorem witness_StepKeepsTheInvariant : sample.Inv ∧ ∃ t, step sample = .next t :=
  ⟨⟨by decide, by decide, rfl, rfl⟩, _, rfl⟩

theorem witness_CanonicalMemoriesReadAlikeAreEqual :
    Memory.wf [(0, 1), (255, 2)] = true ∧ ∀ a : Byte, Memory.read [(0, 1), (255, 2)] a = Memory.read [(0, 1), (255, 2)] a :=
  ⟨by decide, fun _ => rfl⟩

/-- The hypothesis of DecodingAnEncodingGivesItBack. -/
theorem witness_DecodingAnEncodingGivesItBack : Config.standard.opc.Valid := opcDefault_valid

theorem witness_EncodingADecodingGivesItBack :
    opcDefault.Valid ∧ decodeBytesWith opcDefault [0x47, 0x07, 0x01] = .ok (.prn 7, [0x01]) :=
  ⟨opcDefault_valid, rfl⟩

/-- An instruction that wraps past address 255. -/
theorem witness_EncodedInstructionAtPcIsRun :
    let s := at_ 0xFE [0x82, 0x02, 0x82] regs
    opcDefault.Valid ∧ s.running = true ∧
      ∀ (k : Nat) (hk : k < (encodeWith opcDefault (.ldi 2 0x82)).length),
        s.memRead (s.pc + BitVec.ofNat 8 k) = (encodeWith opcDefault (.ldi 2 0x82))[k] :=
  ⟨opcDefault_valid, by decide, by decide⟩

/-- Both clauses of BytesBeyondTheInstructionAreIgnored: one operand byte, none. -/
theorem witness_BytesBeyondTheInstructionAreIgnored :
    dispatch opcDefault 0x47 = some .prn ∧ Mnemonic.prn.operandCount ≤ 1 ∧
      dispatch opcDefault 0x11 = some .ret ∧ Mnemonic.ret.operandCount = 0 := by decide

end Sys2Proof.Tests
end

section
/-! PROOFS of the scope family (spec/00): the outcomes of an instruction and of a step. -/

namespace Sys2Proof.Machine

/-! ### What an instruction does to the running flag and the stop record -/

/-- The result `r` of instruction `i` in state `s`, as spec/40 R114 and R115 allow it: with legal register bytes the
instruction completes and leaves the running flag and the stop record alone; else it is the fault of its first bad
byte. HLT alone does something else. -/
def CompletesOrFaults (i : Instr) (s : State) (r : Result) : Prop :=
  (i.firstBadReg = none ∧ ∃ t, r = .next t ∧ State.SameStop s t) ∨
    ∃ bad, i.firstBadReg = some bad ∧ r = .next (stop .invalidRegisterIndex bad s)

theorem isRegByte_eq_true {b : Byte} (h : b.toNat < 8) : isRegByte b = true := decide_eq_true h

theorem isRegByte_eq_false {b : Byte} (h : 8 ≤ b.toNat) : isRegByte b = false := decide_eq_false (Nat.not_lt.mpr h)

theorem withReg_completesOrFaults {i : Instr} {a : Byte} {s : State} {body : Reg → State} (hi : i.regBytes = [a])
    (hbody : ∀ r, State.SameStop s (body r)) : CompletesOrFaults i s (withReg a s body) := by
  rcases Nat.lt_or_ge a.toNat 8 with ha | ha
  · exact .inl ⟨by simp [Instr.firstBadReg, hi, isRegByte_eq_true ha], _, withReg_ok ha s body, hbody _⟩
  · exact .inr ⟨a, by simp [Instr.firstBadReg, hi, isRegByte_eq_false ha], withReg_bad ha s body⟩

theorem withRegs_completesOrFaults {i : Instr} {a b : Byte} {s : State} {body : Reg → Reg → State}
    (hi : i.regBytes = [a, b]) (hbody : ∀ r q, State.SameStop s (body r q)) :
    CompletesOrFaults i s (withRegs a b s body) := by
  rcases Nat.lt_or_ge a.toNat 8 with ha | ha
  · rcases Nat.lt_or_ge b.toNat 8 with hb | hb
    · exact .inl ⟨by simp [Instr.firstBadReg, hi, isRegByte_eq_true ha, isRegByte_eq_true hb], _,
        withRegs_ok ha hb s body, hbody _ _⟩
    · exact .inr ⟨b, by simp [Instr.firstBadReg, hi, isRegByte_eq_true ha, isRegByte_eq_false hb],
        withRegs_bad_b ha hb s body⟩
  · exact .inr ⟨a, by simp [Instr.firstBadReg, hi, isRegByte_eq_false ha], withRegs_bad_a ha b s body⟩

theorem aluWriteBack_sameStop (ra : Reg) (r : AluOut) (s : State) : State.SameStop s (aluWriteBack ra r s) := by
  cases r with
  | value v => exact ⟨rfl, rfl, rfl⟩
  | flags f => exact ⟨rfl, rfl, rfl⟩

theorem condJump_sameStop (taken : Bool) (ra : Reg) (s : State) : State.SameStop s (condJump taken ra s) := by
  cases taken with
  | true => exact ⟨rfl, rfl, rfl⟩
  | false => exact ⟨rfl, rfl, rfl⟩

theorem execAlu_completesOrFaults {i : Instr} {a b : Byte} (hi : i.regBytes = [a, b]) (op : AluOp) (s : State) :
    CompletesOrFaults i s (execAlu op a b s) :=
  withRegs_completesOrFaults hi fun ra rb => aluWriteBack_sameStop ra (alu op (s.reg ra) (s.reg rb)) s

theorem exec_hlt (s : State) : exec .hlt s = .next (stop .hlt 0 s) := rfl

/-- All an instruction other than HLT can do to the running flag and the stop record (spec/60 R200, R202). -/
theorem exec_completesOrFaults {i : Instr} (hi : i ≠ .hlt) (s : State) : CompletesOrFaults i s (exec i s) := by
  cases i with
  | hlt => exact absurd rfl hi
  | ldi a imm8 => exact withReg_completesOrFaults rfl fun _ => ⟨rfl, rfl, rfl⟩
  | prn a => exact withReg_completesOrFaults rfl fun _ => ⟨rfl, rfl, rfl⟩
  | add a b => exact execAlu_completesOrFaults rfl .add s
  | mul a b => exact execAlu_completesOrFaults rfl .mul s
  | cmp a b => exact execAlu_completesOrFaults rfl .cmp s
  | push a => exact withReg_completesOrFaults rfl fun _ => ⟨rfl, rfl, rfl⟩
  | pop a => exact withReg_completesOrFaults rfl fun _ => ⟨rfl, rfl, rfl⟩
  | call a => exact withReg_completesOrFaults rfl fun _ => ⟨rfl, rfl, rfl⟩
  | ret => exact .inl ⟨rfl, _, rfl, rfl, rfl, rfl⟩
  | jmp a => exact withReg_completesOrFaults rfl fun _ => ⟨rfl, rfl, rfl⟩
  | jeq a => exact withReg_completesOrFaults rfl fun ra => condJump_sameStop s.equalFlag ra s
  | jne a => exact withReg_completesOrFaults rfl fun ra => condJump_sameStop (!s.equalFlag) ra s

/-! ### The outcomes of a step (spec/00 R12) -/

/-- Exactly one of running, clean stop and fault, written as `Obligations.StepHasExactlyOneOfThreeOutcomes` has it. -/
def State.OneOutcome (t : State) : Prop :=
  (t.running = true ∧ ¬ t.CleanStop ∧ ¬ t.FaultStop) ∨
    (t.CleanStop ∧ t.running = false ∧ ¬ t.FaultStop) ∨
    (t.FaultStop ∧ t.running = false ∧ ¬ t.CleanStop)

theorem oneOutcome_of_running {t : State} (h : t.running = true) : t.OneOutcome :=
  .inl ⟨h, by simp [State.CleanStop, h], by simp [State.FaultStop, h]⟩

theorem oneOutcome_stop {c : StopCause} (hc : c ≠ .none) (info : Byte) (s : State) :
    (stop c info s).OneOutcome := by
  cases c with
  | none => exact absurd rfl hc
  | hlt => exact .inr (.inl (by simp [State.CleanStop, State.FaultStop]))
  | unrecognizedOpcode => exact .inr (.inl (by simp [State.CleanStop, State.FaultStop]))
  | invalidRegisterIndex => exact .inr (.inr (by simp [State.CleanStop, State.FaultStop]))
  | unsupportedAluOp => exact .inr (.inr (by simp [State.CleanStop, State.FaultStop]))

theorem exec_oneOutcome (i : Instr) {s : State} (hs : s.running = true) :
    ∃ t, exec i s = .next t ∧ t.OneOutcome := by
  by_cases hi : i = .hlt
  · exact ⟨_, hi ▸ exec_hlt s, oneOutcome_stop (by decide) 0 s⟩
  · rcases exec_completesOrFaults hi s with ⟨-, t, ht, hrun, -⟩ | ⟨bad, -, ht⟩
    · exact ⟨t, ht, oneOutcome_of_running (hrun.trans hs)⟩
    · exact ⟨_, ht, oneOutcome_stop (by decide) bad s⟩

theorem step_oneOutcome {s : State} (hs : s.running = true) : ∃ t, step s = .next t ∧ t.OneOutcome := by
  rw [step_eq s hs]
  cases decodeAtPc Config.standard.opc s with
  | ok i => exact exec_oneOutcome i hs
  | error e =>
    obtain ⟨op⟩ := e
    exact ⟨_, rfl, oneOutcome_stop (by decide) op s⟩

theorem step_of_not_running {s : State} (hs : s.running = false) : step s = .fault .notRunning := by
  simp [step, stepWith, hs]

/-- Settles O31: a running state steps by the decoded instruction or stops on an unrecognized opcode, and either way the
running flag and the cause single out one outcome. -/
theorem stepHasExactlyOneOfThreeOutcomes : Obligations.StepHasExactlyOneOfThreeOutcomes := by
  intro s
  refine ⟨step_oneOutcome, fun hs t ht => ?_⟩
  rw [step_of_not_running hs] at ht
  cases ht

end Sys2Proof.Machine
end

section
/-! PROOFS of the state family (spec/10): the reset state, the registers each instruction reads and writes, FL. -/

namespace Sys2Proof.Machine

/-! ### The reset state (spec/10 R44) -/

theorem reset_reg_eq_zero : ∀ q : Reg, q.val < 7 → State.reset.reg q = 0 := by decide

/-- Settles O1: each row of the reset table is a field of `State.reset`, and its empty memory reads as unlisted. -/
theorem resetGivesTheConstructionState : Obligations.ResetGivesTheConstructionState :=
  ⟨reset_reg_eq_zero, rfl, rfl, rfl, fun _ => rfl, rfl⟩

/-! ### Register operands, seen from outside: one run, and two runs side by side -/

/-- What the fault and every completed run leave as it was (`f`) is as it was in the next state. -/
theorem withReg_frame {α : Type} (f : State → α) {a : Byte} {s t : State} {body : Reg → State}
    (h : withReg a s body = .next t) (hstop : ∀ bad, f (stop .invalidRegisterIndex bad s) = f s)
    (hbody : ∀ ra : Reg, ra.val = a.toNat → f (body ra) = f s) : f t = f s := by
  obtain ⟨ha, rfl⟩ | ⟨-, rfl⟩ := withReg_cases h
  · exact hbody _ rfl
  · exact hstop a

/-- `withReg_frame` for two operands. -/
theorem withRegs_frame {α : Type} (f : State → α) {a b : Byte} {s t : State} {body : Reg → Reg → State}
    (h : withRegs a b s body = .next t) (hstop : ∀ bad, f (stop .invalidRegisterIndex bad s) = f s)
    (hbody : ∀ ra rb : Reg, ra.val = a.toNat → rb.val = b.toNat → f (body ra rb) = f s) : f t = f s := by
  obtain ⟨ha, hb, rfl⟩ | ⟨-, rfl⟩ | ⟨-, -, rfl⟩ := withRegs_cases h
  · exact hbody _ _ rfl rfl
  · exact hstop a
  · exact hstop b

/-- Both results are next states, and `R` relates the first to the second. -/
def RelatedResults (R : State → State → Prop) (r r' : Result) : Prop :=
  ∃ t t', r = .next t ∧ r' = .next t' ∧ R t t'

theorem RelatedResults.of_next {R : State → State → Prop} {r r' : Result} {t : State}
    (h : RelatedResults R r r') (hr : r = .next t) : ∃ t', r' = .next t' ∧ R t t' := by
  obtain ⟨u, t', hu, ht', hR⟩ := h
  rw [hr] at hu
  injection hu with hu
  exact ⟨t', ht', hu ▸ hR⟩

theorem withReg_related {R : State → State → Prop} {a : Byte} {s s' : State} {body body' : Reg → State}
    (hstop : ∀ bad ∈ [a], 8 ≤ bad.toNat →
      R (stop .invalidRegisterIndex bad s) (stop .invalidRegisterIndex bad s'))
    (hbody : ∀ ra : Reg, ra.val = a.toNat → R (body ra) (body' ra)) :
    RelatedResults R (withReg a s body) (withReg a s' body') := by
  rcases Nat.lt_or_ge a.toNat 8 with ha | ha
  · exact ⟨_, _, withReg_ok ha s body, withReg_ok ha s' body', hbody _ rfl⟩
  · exact ⟨_, _, withReg_bad ha s body, withReg_bad ha s' body', hstop a (by simp) ha⟩

theorem withRegs_related {R : State → State → Prop} {a b : Byte} {s s' : State} {body body' : Reg → Reg → State}
    (hstop : ∀ bad ∈ [a, b], 8 ≤ bad.toNat →
      R (stop .invalidRegisterIndex bad s) (stop .invalidRegisterIndex bad s'))
    (hbody : ∀ ra rb : Reg, ra.val = a.toNat → rb.val = b.toNat → R (body ra rb) (body' ra rb)) :
    RelatedResults R (withRegs a b s body) (withRegs a b s' body') := by
  rcases Nat.lt_or_ge a.toNat 8 with ha | ha
  · rcases Nat.lt_or_ge b.toNat 8 with hb | hb
    · exact ⟨_, _, withRegs_ok ha hb s body, withRegs_ok ha hb s' body', hbody _ _ rfl rfl⟩
    · exact ⟨_, _, withRegs_bad_b ha hb s body, withRegs_bad_b ha hb s' body', hstop b (by simp) hb⟩
  · exact ⟨_, _, withRegs_bad_a ha b s body, withRegs_bad_a ha b s' body', hstop a (by simp) ha⟩

theorem ne_of_operand_ne {q ra : Reg} {a : Byte} (hra : ra.val = a.toNat) (hq : q.val ≠ a.toNat) : q ≠ ra :=
  fun h => hq (h ▸ hra)

theorem toNat_lt_of_wellFormed {i : Instr} (hi : i.wellFormed = true) {b : Byte} (hb : b ∈ i.regBytes) :
    b.toNat < 8 :=
  of_decide_eq_true (List.all_eq_true.mp hi b hb)

/-! ### The registers an instruction writes (spec/10 R24, column "writes") -/

theorem State.setReg_reg_of_ne {q r : Reg} (hq : q ≠ r) (s : State) (v : Byte) : (s.setReg r v).reg q = s.reg q := by
  simp [hq]

theorem condJump_reg (taken : Bool) (ra : Reg) (s : State) (q : Reg) : (condJump taken ra s).reg q = s.reg q := by
  cases taken with
  | true => rfl
  | false => rfl

theorem pushByte_reg_of_ne {q : Reg} (hq : q ≠ 7) (f : State → Byte) (s : State) :
    (pushByte f s).reg q = s.reg q := by
  rw [pushByte_eq, State.memWrite_reg, State.setReg_reg_of_ne hq]

theorem popByte_reg_of_ne {q : Reg} (hq : q ≠ 7) (deliver : Byte → State → State) (s : State) :
    (popByte deliver s).reg q = (deliver (s.memRead (s.reg 7)) s).reg q := by
  rw [popByte_eq, State.setReg_reg_of_ne hq]

/-- No instruction changes a register its row does not list as written. -/
theorem exec_reg_of_not_writesReg {i : Instr} {s t : State} {q : Reg} (h : exec i s = .next t)
    (hq : ¬ writesReg i q) : t.reg q = s.reg q := by
  have hstop (bad : Byte) : (stop .invalidRegisterIndex bad s).reg q = s.reg q := rfl
  cases i with
  | ldi a imm8 =>
    exact withReg_frame (State.reg · q) h hstop fun ra hra => State.setReg_reg_of_ne (ne_of_operand_ne hra hq) s imm8
  | prn a => exact withReg_frame (State.reg · q) h hstop fun _ _ => rfl
  | hlt => cases h; rfl
  | add a b =>
    exact withRegs_frame (State.reg · q) h hstop fun ra _ hra _ => State.setReg_reg_of_ne (ne_of_operand_ne hra hq) s _
  | mul a b =>
    exact withRegs_frame (State.reg · q) h hstop fun ra _ hra _ => State.setReg_reg_of_ne (ne_of_operand_ne hra hq) s _
  | cmp a b => exact withRegs_frame (State.reg · q) h hstop fun _ _ _ _ => rfl
  | push a => exact withReg_frame (State.reg · q) h hstop fun ra _ => pushByte_reg_of_ne hq (State.reg · ra) s
  | pop a =>
    obtain ⟨hqa, hq7⟩ := not_or.mp hq
    refine withReg_frame (State.reg · q) h hstop fun ra hra => ?_
    rw [State.advancePc_reg, popByte_reg_of_ne hq7, State.setReg_reg_of_ne (ne_of_operand_ne hra hqa)]
  | call a => exact withReg_frame (State.reg · q) h hstop fun _ _ => pushByte_reg_of_ne hq returnAddress s
  | ret => cases h; exact popByte_reg_of_ne hq _ s
  | jmp a => exact withReg_frame (State.reg · q) h hstop fun _ _ => rfl
  | jeq a => exact withReg_frame (State.reg · q) h hstop fun ra _ => condJump_reg s.equalFlag ra s q
  | jne a => exact withReg_frame (State.reg · q) h hstop fun ra _ => condJump_reg (!s.equalFlag) ra s q

/-! ### The registers an instruction reads (spec/10 R24, column "reads")

Every operation commutes with a write to a register it does not read, or swallows the write where it overwrites that
register. -/

theorem State.setReg_setReg_same (s : State) (q : Reg) (v w : Byte) : (s.setReg q v).setReg q w = s.setReg q w := by
  simp [State.setReg]

theorem State.setReg_comm {q r : Reg} (hq : q ≠ r) (s : State) (v w : Byte) :
    (s.setReg q v).setReg r w = (s.setReg r w).setReg q v := by
  simp only [State.setReg, State.mk.injEq, and_true]
  exact Vector.set_comm v w (Fin.val_ne_of_ne hq)

theorem aluWriteBack_setReg {q ra : Reg} (hq : q ≠ ra) (r : AluOut) (s : State) (v : Byte) :
    aluWriteBack ra r (s.setReg q v) = (aluWriteBack ra r s).setReg q v := by
  cases r with
  | value w => exact State.setReg_comm hq s v w
  | flags f => rfl

theorem condJump_setReg {taken : Bool} {q ra : Reg} (hq : taken = true → q ≠ ra) (s : State) (v : Byte) :
    condJump taken ra (s.setReg q v) = (condJump taken ra s).setReg q v := by
  cases taken with
  | true => rw [condJump_taken, condJump_taken, State.setReg_reg_of_ne (hq rfl).symm]; rfl
  | false => rfl

theorem pushByte_setReg {q : Reg} {v : Byte} {f : State → Byte} (hq : q ≠ 7)
    (hf : ∀ u : State, f (u.setReg q v) = f u) (s : State) :
    pushByte f (s.setReg q v) = (pushByte f s).setReg q v := by
  rw [pushByte_eq, pushByte_eq, State.setReg_reg_of_ne hq.symm, State.setReg_comm hq, hf]
  rfl

theorem popByte_setReg {q : Reg} {v : Byte} {deliver : Byte → State → State} {s : State} (hq : q ≠ 7)
    (hd : ∀ m, deliver m (s.setReg q v) = (deliver m s).setReg q v) :
    popByte deliver (s.setReg q v) = (popByte deliver s).setReg q v := by
  rw [popByte_eq, popByte_eq, State.setReg_memRead, State.setReg_reg_of_ne hq.symm, hd,
    State.setReg_reg_of_ne hq.symm, State.setReg_comm hq]

theorem popByte_setReg_of_overwritten {q : Reg} {v : Byte} {deliver : Byte → State → State} {s : State}
    (hq : q ≠ 7) (hd : ∀ m, deliver m (s.setReg q v) = deliver m s) :
    popByte deliver (s.setReg q v) = popByte deliver s := by
  rw [popByte_eq, popByte_eq, State.setReg_memRead, State.setReg_reg_of_ne hq.symm, hd]

/-- The result `t'` of a run with register `q` changed to `v` beforehand, against the result `t` without the change:
the same where the run overwrites `q` (`w`), else the same but for the change. -/
def CarriesChange (w : Prop) (q : Reg) (v : Byte) (t t' : State) : Prop :=
  (w → t' = t) ∧ (¬ w → t' = t.setReg q v)

theorem CarriesChange.of_kept {w : Prop} {q : Reg} {v : Byte} {t t' : State} (hw : ¬ w) (h : t' = t.setReg q v) :
    CarriesChange w q v t t' :=
  ⟨fun h' => absurd h' hw, fun _ => h⟩

theorem CarriesChange.of_overwritten {w : Prop} {q : Reg} {v : Byte} {t t' : State} (hw : w) (h : t' = t) :
    CarriesChange w q v t t' :=
  ⟨fun _ => h, fun h' => absurd hw h'⟩

/-- The three ALU instructions carry a change of a register that neither operand names; `w` says that the
instruction writes that register. -/
theorem execAlu_carriesChange {w : Prop} {a b : Byte} {s : State} {q : Reg} (op : AluOp) (hw : ¬ w)
    (hq : ¬ (q.val = a.toNat ∨ q.val = b.toNat)) (v : Byte)
    (hstop : ∀ bad ∈ [a, b], 8 ≤ bad.toNat → CarriesChange w q v
      (stop .invalidRegisterIndex bad s) (stop .invalidRegisterIndex bad (s.setReg q v))) :
    RelatedResults (CarriesChange w q v) (execAlu op a b s) (execAlu op a b (s.setReg q v)) := by
  obtain ⟨hqa, hqb⟩ := not_or.mp hq
  refine withRegs_related hstop fun ra rb hra hrb => .of_kept hw ?_
  have hqra := ne_of_operand_ne hra hqa
  have hqrb := ne_of_operand_ne hrb hqb
  rw [State.setReg_reg_of_ne hqra.symm, State.setReg_reg_of_ne hqrb.symm, aluWriteBack_setReg hqra]
  rfl

/-- A legal instruction carries a change of a register its row does not list as read. -/
theorem exec_carriesChange {i : Instr} {s : State} {q : Reg} (hi : i.wellFormed = true) (hq : ¬ readsReg i s q)
    (v : Byte) : RelatedResults (CarriesChange (writesReg i q) q v) (exec i s) (exec i (s.setReg q v)) := by
  have hstop : ∀ bad ∈ i.regBytes, 8 ≤ bad.toNat → CarriesChange (writesReg i q) q v
      (stop .invalidRegisterIndex bad s) (stop .invalidRegisterIndex bad (s.setReg q v)) :=
    fun bad hb h8 => absurd (toNat_lt_of_wellFormed hi hb) (Nat.not_lt.mpr h8)
  have hreg {r : Reg} (hr : q ≠ r) (u : State) : (u.setReg q v).reg r = u.reg r :=
    State.setReg_reg_of_ne hr.symm u v
  cases i with
  | ldi a imm8 =>
    refine withReg_related hstop fun ra hra => ?_
    by_cases hw : q.val = a.toNat
    · obtain rfl : q = ra := Fin.ext (hw.trans hra.symm)
      exact .of_overwritten hw (congrArg (State.advancePc · 3) (State.setReg_setReg_same s q v imm8))
    · exact .of_kept hw (congrArg (State.advancePc · 3) (State.setReg_comm (ne_of_operand_ne hra hw) s v imm8))
  | prn a =>
    refine withReg_related hstop fun ra hra => .of_kept id ?_
    rw [hreg (ne_of_operand_ne hra hq)]
    rfl
  | hlt => exact ⟨_, _, rfl, rfl, .of_kept id rfl⟩
  | add a b => exact execAlu_carriesChange .add (fun hw => hq (.inl hw)) hq v hstop
  | mul a b => exact execAlu_carriesChange .mul (fun hw => hq (.inl hw)) hq v hstop
  | cmp a b => exact execAlu_carriesChange .cmp id hq v hstop
  | push a =>
    obtain ⟨hq7, hqa⟩ := not_or.mp hq
    refine withReg_related hstop fun ra hra => .of_kept hq7 ?_
    rw [pushByte_setReg hq7 (hreg (ne_of_operand_ne hra hqa))]
    rfl
  | pop a =>
    refine withReg_related hstop fun ra hra => ?_
    by_cases hw : q.val = a.toNat
    · obtain rfl : q = ra := Fin.ext (hw.trans hra.symm)
      refine .of_overwritten (.inl hw) ?_
      rw [popByte_setReg_of_overwritten hq fun m => State.setReg_setReg_same s q v m]
    · refine .of_kept (not_or.mpr ⟨hw, hq⟩) ?_
      rw [popByte_setReg hq fun m => State.setReg_comm (ne_of_operand_ne hra hw) s v m]
      rfl
  | call a =>
    obtain ⟨hq7, hqa⟩ := not_or.mp hq
    refine withReg_related hstop fun ra hra => .of_kept hq7 ?_
    simp only [pushByte_setReg hq7 (f := returnAddress) (fun _ => rfl), hreg (ne_of_operand_ne hra hqa)]
    rfl
  | ret => exact ⟨_, _, rfl, rfl, .of_kept hq (popByte_setReg hq fun _ => rfl)⟩
  | jmp a =>
    refine withReg_related hstop fun ra hra => .of_kept id ?_
    rw [hreg (ne_of_operand_ne hra hq)]
    rfl
  | jeq a =>
    refine withReg_related hstop fun ra hra => .of_kept id (condJump_setReg (fun htaken => ?_) s v)
    exact ne_of_operand_ne hra fun hqa => hq ⟨htaken, hqa⟩
  | jne a =>
    refine withReg_related hstop fun ra hra => .of_kept id (condJump_setReg (fun htaken => ?_) s v)
    exact ne_of_operand_ne hra fun hqa => hq ⟨by simpa using htaken, hqa⟩

/-- Settles O36: a register not listed as written is framed, and a change of one not listed as read is carried. -/
theorem registersReadAndWrittenAreTheTables : Obligations.RegistersReadAndWrittenAreTheTables := by
  refine ⟨fun i s t q h hq => exec_reg_of_not_writesReg h hq, fun i s t q v hi h hq => ?_⟩
  obtain ⟨t', ht', hover, hkept⟩ := (exec_carriesChange hi hq v).of_next h
  exact ⟨fun hw => hover hw ▸ ht', fun hw => hkept hw ▸ ht'⟩

/-! ### FL (spec/10 R31) -/

theorem condJump_fl (taken : Bool) (ra : Reg) (s : State) : (condJump taken ra s).fl = s.fl := by
  cases taken with
  | true => rfl
  | false => rfl

/-- Only CMP writes FL. -/
theorem exec_fl_of_ne_cmp {i : Instr} {s t : State} (h : exec i s = .next t) (hi : ∀ a b, i ≠ .cmp a b) :
    t.fl = s.fl := by
  have hstop (bad : Byte) : (stop .invalidRegisterIndex bad s).fl = s.fl := rfl
  cases i with
  | ldi a imm8 => exact withReg_frame State.fl h hstop fun _ _ => rfl
  | prn a => exact withReg_frame State.fl h hstop fun _ _ => rfl
  | hlt => cases h; rfl
  | add a b => exact withRegs_frame State.fl h hstop fun _ _ _ _ => rfl
  | mul a b => exact withRegs_frame State.fl h hstop fun _ _ _ _ => rfl
  | cmp a b => exact absurd rfl (hi a b)
  | push a => exact withReg_frame State.fl h hstop fun _ _ => rfl
  | pop a => exact withReg_frame State.fl h hstop fun _ _ => rfl
  | call a => exact withReg_frame State.fl h hstop fun _ _ => rfl
  | ret => cases h; rfl
  | jmp a => exact withReg_frame State.fl h hstop fun _ _ => rfl
  | jeq a => exact withReg_frame State.fl h hstop fun ra _ => condJump_fl s.equalFlag ra s
  | jne a => exact withReg_frame State.fl h hstop fun ra _ => condJump_fl (!s.equalFlag) ra s

theorem exec_cmp_eq {a b : Byte} (ha : a.toNat < 8) (hb : b.toNat < 8) (s : State) :
    exec (.cmp a b) s =
      .next ((s.setFl (flOfFlags (cmpFlags (s.reg ⟨a.toNat, ha⟩) (s.reg ⟨b.toNat, hb⟩)))).advancePc 3) :=
  withRegs_ok ha hb s _

/-- CMP with legal operands overwrites all of FL. -/
theorem exec_cmp_setFl {a b : Byte} (ha : a.toNat < 8) (hb : b.toNat < 8) (f : Byte) (s : State) :
    exec (.cmp a b) (s.setFl f) = exec (.cmp a b) s := by
  rw [exec_cmp_eq ha hb, exec_cmp_eq ha hb]
  rfl

/-- The states differ in FL at most. -/
def EqualButFl (t t' : State) : Prop := t'.setFl t.fl = t

theorem condJump_equalButFl (taken : Bool) (ra : Reg) (s : State) (f : Byte) :
    EqualButFl (condJump taken ra s) (condJump taken ra (s.setFl f)) := by
  cases taken with
  | true => rfl
  | false => rfl

/-- Only JEQ and JNE read FL, and only its bit 0. -/
theorem exec_setFl_equalButFl {i : Instr} {s : State} {f : Byte}
    (hf : ∀ a, i = .jeq a ∨ i = .jne a → f.getLsbD 0 = s.fl.getLsbD 0) :
    RelatedResults EqualButFl (exec i s) (exec i (s.setFl f)) := by
  have hstop : ∀ bad ∈ i.regBytes, 8 ≤ bad.toNat →
      EqualButFl (stop .invalidRegisterIndex bad s) (stop .invalidRegisterIndex bad (s.setFl f)) :=
    fun _ _ _ => rfl
  cases i with
  | ldi a imm8 => exact withReg_related hstop fun _ _ => rfl
  | prn a => exact withReg_related hstop fun _ _ => rfl
  | hlt => exact ⟨_, _, rfl, rfl, rfl⟩
  | add a b => exact withRegs_related hstop fun _ _ _ _ => rfl
  | mul a b => exact withRegs_related hstop fun _ _ _ _ => rfl
  | cmp a b => exact withRegs_related hstop fun _ _ _ _ => rfl
  | push a => exact withReg_related hstop fun _ _ => rfl
  | pop a => exact withReg_related hstop fun _ _ => rfl
  | call a => exact withReg_related hstop fun _ _ => rfl
  | ret => exact ⟨_, _, rfl, rfl, rfl⟩
  | jmp a => exact withReg_related hstop fun _ _ => rfl
  | jeq a =>
    have hE : (s.setFl f).equalFlag = s.equalFlag := hf a (.inl rfl)
    refine withReg_related hstop fun ra _ => ?_
    rw [hE]
    exact condJump_equalButFl s.equalFlag ra s f
  | jne a =>
    have hE : (s.setFl f).equalFlag = s.equalFlag := hf a (.inr rfl)
    refine withReg_related hstop fun ra _ => ?_
    rw [hE]
    exact condJump_equalButFl (!s.equalFlag) ra s f

/-- Settles O37: FL is framed by every instruction but CMP, overwritten by CMP, and read at bit 0 by JEQ and JNE
alone. -/
theorem onlyCmpWritesFlAndOnlyBitZeroIsRead : Obligations.OnlyCmpWritesFlAndOnlyBitZeroIsRead :=
  ⟨fun _ _ _ h hi => exec_fl_of_ne_cmp h hi,
    fun _ _ f s _ ha hb h => (exec_cmp_setFl ha hb f s).trans h,
    fun _ _ _ _ h hf => (exec_setFl_equalButFl hf).of_next h⟩

end Sys2Proof.Machine
end

section
/-! PROOFS of the encoding family (spec/30): how many bytes are no opcode, and the stop on one of them. -/

namespace Sys2Proof

/-! ### How many bytes are opcodes (spec/30 R92) -/

theorem Mnemonic.nodup_all : Mnemonic.all.Nodup := by decide

theorem dispatch_isSome {opc : OpcodeMap} {op : Byte} : (dispatch opc op).isSome = true ↔ ∃ m, opc m = op := by
  rw [← Option.ne_none_iff_isSome, ne_eq, dispatch_none]
  simp

/-- The bytes that dispatch recognizes are the opcodes of the 13 instructions, each of them once. -/
theorem recognizedBytes_perm_opcodes {opc : OpcodeMap} (h : opc.Valid) :
    ((List.finRange 256).filter fun n => (dispatch opc (BitVec.ofFin n)).isSome).Perm
      (Mnemonic.all.map fun m => (opc m).toFin) := by
  have hinj : Function.Injective fun m => (opc m).toFin := fun m n hmn => h.injective m n (BitVec.toFin_inj.mp hmn)
  refine (List.perm_ext_iff_of_nodup ((List.nodup_finRange 256).filter _) (Mnemonic.nodup_all.map hinj)).mpr fun n => ?_
  simp [dispatch_isSome, Mnemonic.mem_all, ← BitVec.toFin_inj]

theorem countP_recognized {opc : OpcodeMap} (h : opc.Valid) :
    ((List.finRange 256).countP fun n => (dispatch opc (BitVec.ofFin n)).isSome) = 13 := by
  rw [List.countP_eq_length_filter, (recognizedBytes_perm_opcodes h).length_eq, List.length_map]
  rfl

/-- A valid map takes 13 of the 256 bytes and leaves the other 243. -/
theorem countP_unrecognized {opc : OpcodeMap} (h : opc.Valid) :
    ((List.finRange 256).countP fun n => dispatch opc (BitVec.ofFin n) == none) = 243 := by
  have hsplit := List.length_eq_countP_add_countP
    (fun n => (dispatch opc (BitVec.ofFin n)).isSome) (l := List.finRange 256)
  rw [countP_recognized h, List.length_finRange] at hsplit
  have hnone (n : Fin 256) : decide (¬ (dispatch opc (BitVec.ofFin n)).isSome = true) =
      (dispatch opc (BitVec.ofFin n) == none) := by
    cases dispatch opc (BitVec.ofFin n) with
    | none => rfl
    | some m => rfl
  simp only [hnone] at hsplit
  omega

theorem decodeWith_of_forall_ne {opc : OpcodeMap} {op : Byte} (h : ∀ m, opc m ≠ op) (a b : Byte) :
    decodeWith opc op a b = .error (.unrecognizedOpcode op) := by
  simp only [decodeWith, dispatch_none.mpr h]

end Sys2Proof

namespace Sys2Proof.Machine

/-! ### The stop on an unrecognized byte (spec/60 R201) -/

theorem stepWith_of_unrecognized {opc : OpcodeMap} {s : State} (hs : s.running = true)
    (hop : ∀ m, opc m ≠ s.memRead s.pc) :
    stepWith opc s = .next (stop .unrecognizedOpcode (s.memRead s.pc) s) := by
  have h0 : fetchByte s 0 = s.memRead s.pc := by simp [fetchByte_eq]
  rw [stepWith, if_pos hs, decodeAtPc, h0, decodeWith_of_forall_ne hop, runDecoded]

/-- Settles O30: the 13 opcodes are pairwise different, so 243 of the 256 bytes remain, and the step on one of them is
`stop`, which changes the running flag and the stop record alone. -/
theorem everyMapLeaves243BytesThatStop : Obligations.EveryMapLeaves243BytesThatStop := by
  intro opc hopc
  refine ⟨countP_unrecognized hopc, fun s hs hop => ⟨_, stepWith_of_unrecognized hs hop, ?_⟩⟩
  simp [State.CleanStop, State.SameMemory]

end Sys2Proof.Machine
end

section
/-! PROOFS of the control transfer family (spec/44): RET, JEQ and JNE. -/

namespace Sys2Proof.Machine

/-! ### RET (spec/44 R177) -/

/-- RET, whole: PC loaded with the byte at SP, SP incremented. -/
theorem exec_ret_eq (s : State) :
    exec .ret s = .next ((s.setPc (s.memRead (s.reg 7))).setReg 7 (s.reg 7 + 1)) :=
  congrArg Host.Outcome.next (popByte_eq (fun v u => u.setPc v) s)

/-- Settles O22: RET loads PC and writes register 7, and these two writes touch nothing else. -/
theorem retPopsIntoPc : Obligations.RetPopsIntoPc := by
  intro s
  refine ⟨_, exec_ret_eq s, rfl, ?sp, fun q hq => State.setReg_reg_of_ne hq _ _, rfl, fun _ => rfl,
    ⟨rfl, rfl, rfl⟩, rfl⟩
  case sp =>
    rw [State.setReg_reg, if_pos rfl, BitVec.toNat_add]
    rfl

/-! ### JEQ and JNE (spec/44 R179 to R181) -/

/-- Loading PC changes nothing else. -/
theorem State.setPc_frame (s : State) (v : Byte) :
    (∀ q : Reg, (s.setPc v).reg q = s.reg q) ∧ (s.setPc v).fl = s.fl ∧ State.SameMemory s (s.setPc v) ∧
      State.SameStop s (s.setPc v) ∧ (s.setPc v).out = s.out :=
  ⟨fun _ => rfl, rfl, fun _ => rfl, ⟨rfl, rfl, rfl⟩, rfl⟩

/-- Taken or not, a conditional jump is one load of PC. -/
theorem condJump_eq_setPc (taken : Bool) (ra : Reg) (s : State) :
    condJump taken ra s = s.setPc (if taken = true then s.reg ra else s.pc + 2) := by
  cases taken with
  | true => rfl
  | false => rfl

theorem exec_jeq_eq {a : Byte} (ha : a.toNat < 8) (s : State) :
    exec (.jeq a) s =
      .next (s.setPc (if s.fl.getLsbD 0 = true then s.reg ⟨a.toNat, ha⟩ else s.pc + 2)) :=
  (withReg_ok ha s _).trans (congrArg Host.Outcome.next (condJump_eq_setPc s.equalFlag _ s))

theorem exec_jne_eq {a : Byte} (ha : a.toNat < 8) (s : State) :
    exec (.jne a) s =
      .next (s.setPc (if s.fl.getLsbD 0 = false then s.reg ⟨a.toNat, ha⟩ else s.pc + 2)) := by
  have hjump := condJump_eq_setPc (!s.fl.getLsbD 0) ⟨a.toNat, ha⟩ s
  simp only [Bool.not_eq_true'] at hjump
  exact (withReg_ok ha s _).trans (congrArg Host.Outcome.next hjump)

/-- Settles O24: both are one load of PC, with the target chosen by the Equal flag (JEQ) or by its negation (JNE). -/
theorem jeqAndJneBranchOnEqual : Obligations.JeqAndJneBranchOnEqual := by
  intro s a ha
  refine ⟨_, _, exec_jeq_eq ha s, exec_jne_eq ha s, rfl, rfl, ?_⟩
  exact List.forall_mem_cons.mpr ⟨State.setPc_frame s _, List.forall_mem_singleton.mpr (State.setPc_frame s _)⟩

end Sys2Proof.Machine
end

section
/-! PROOFS of the reset and load family (spec/70): what a load leaves in memory. -/

namespace Sys2Proof.Machine

/-! ### The load port (spec/70 R237) -/

/-- An address other than `a` lies one cell further from `a` than from `a + 1`. -/
theorem toNat_sub_eq_succ_of_ne {a b : Byte} (h : b ≠ a) : (b - a).toNat = (b - (a + 1)).toNat + 1 := by
  bv_omega

/-- After a load at `a`, address `b` reads the image byte at its distance from `a`, or as before beyond the image. An
image of at most 256 bytes does not wrap onto its own first byte. -/
theorem loadFrom_memRead (a : Byte) {image : List Byte} (himage : image.length ≤ 256) (s : State) (b : Byte) :
    (loadFrom a image s).memRead b = image[(b - a).toNat]?.getD (s.memRead b) := by
  induction image generalizing a s with
  | nil => rfl
  | cons v rest ih =>
    rw [List.length_cons] at himage
    have hstore : (loadByte a v s).memRead b = if b = a then v else s.memRead b := State.memWrite_memRead s a v b
    rw [loadFrom, ih (a + 1) (by omega), hstore]
    by_cases hb : b = a
    · subst hb
      have hlast : rest.length ≤ (b - (b + 1)).toNat := by bv_omega
      rw [List.getElem?_eq_none hlast, if_pos rfl, BitVec.sub_self]
      rfl
    · rw [if_neg hb, toNat_sub_eq_succ_of_ne hb, List.getElem?_cons_succ]

/-! ### Boot: reset, then load (spec/70 R232) -/

theorem boot_of_length_le {image : List Byte} (himage : image.length ≤ 256) :
    boot image = some (loadFrom 0 image State.reset) :=
  if_pos himage

/-- Settles O5: boot loads at address 0 over memory that reads 0 everywhere, and a load changes memory alone. -/
theorem loadPlacesImageAndZeroBeyond : Obligations.LoadPlacesImageAndZeroBeyond := by
  intro image himage
  have hread (a : Byte) : (loadFrom 0 image State.reset).memRead a = image[a.toNat]?.getD 0 := by
    have hdist : a - 0 = a := BitVec.sub_zero a
    rw [loadFrom_memRead 0 himage, hdist]
    rfl
  obtain ⟨m, hframe⟩ := loadFrom_frame 0 image State.reset
  refine ⟨_, boot_of_length_le himage, fun a ha => ?inside, fun a ha => ?beyond, ?frame⟩
  case inside => rw [hread, List.getElem?_eq_getElem ha, Option.getD_some]
  case beyond => rw [hread, List.getElem?_eq_none ha, Option.getD_none]
  case frame =>
    rw [hframe]
    exact ⟨fun _ => rfl, rfl, rfl, ⟨rfl, rfl, rfl⟩, rfl⟩

end Sys2Proof.Machine
end

section
/-! PROOFS of the decoder and the encoder (spec/30), and of the step on the instruction at PC (spec/40 R110). -/

namespace Sys2Proof

/-! ### An instruction is its kind with the operand bytes of that kind (spec/30 R80, R88) -/

theorem Instr.length_operandBytes (i : Instr) : i.operandBytes.length = i.mnemonic.operandCount := by
  cases i <;> rfl

theorem operandBytes_assemble (m : Mnemonic) (a b : Byte) :
    (assemble m a b).operandBytes = [a, b].take m.operandCount := by
  cases m <;> rfl

/-- The two bytes after an opcode that an instruction of its kind reads determine the instruction. -/
theorem assemble_eq_of_operandBytes {i : Instr} {a b : Byte}
    (h : i.operandBytes = [a, b].take i.mnemonic.operandCount) : assemble i.mnemonic a b = i := by
  cases i with
  | hlt => rfl
  | ret => rfl
  | ldi c d | add c d | mul c d | cmp c d =>
    cases (show [c, d] = [a, b] from h)
    rfl
  | prn c | push c | pop c | call c | jmp c | jeq c | jne c =>
    cases (show [c] = [a] from h)
    rfl

/-- The operand bytes that an instruction's kind does not have do not matter (spec/30 R88). -/
theorem assemble_congr {m : Mnemonic} {a b a' b' : Byte}
    (h : [a', b'].take m.operandCount = [a, b].take m.operandCount) : assemble m a b = assemble m a' b' :=
  calc assemble m a b
    _ = assemble (assemble m a' b').mnemonic a b := by rw [assemble_mnemonic]
    _ = assemble m a' b' := assemble_eq_of_operandBytes (by rw [operandBytes_assemble, assemble_mnemonic, h])

theorem decodeWith_of_dispatch {opc : OpcodeMap} {op : Byte} {m : Mnemonic} (h : dispatch opc op = some m)
    (a b : Byte) : decodeWith opc op a b = .ok (assemble m a b) := by
  rw [decodeWith, h]

/-- Settles O50: a kind with at most one operand byte takes none of the second, and one with none takes neither. -/
theorem bytesBeyondTheInstructionAreIgnored : Obligations.BytesBeyondTheInstructionAreIgnored := by
  intro opc op a b a' b' m hm
  simp only [decodeWith_of_dispatch hm]
  refine ⟨fun hcount => congrArg Except.ok (assemble_congr ?_), fun hcount => congrArg Except.ok (assemble_congr ?_)⟩
  · rcases Nat.le_one_iff_eq_zero_or_eq_one.mp hcount with h | h <;> rw [h] <;> rfl
  · rw [hcount]
    rfl

/-- Settles O46: the default map's decoder computes each of the six words. -/
theorem writtenOutWordsDecode : Obligations.WrittenOutWordsDecode :=
  ⟨rfl, rfl, rfl, rfl, rfl, rfl⟩

/-! ### Decoding and encoding are inverse (spec/30 R89, R91) -/

theorem decodeBytesWith_of_dispatch {opc : OpcodeMap} {op : Byte} {m : Mnemonic} (h : dispatch opc op = some m)
    (tail : List Byte) :
    decodeBytesWith opc (op :: tail) =
      if tail.length < m.operandCount then .error .truncated
      else .ok (assemble m (tail.getD 0 0) (tail.getD 1 0), tail.drop m.operandCount) := by
  simp only [decodeBytesWith, h]

/-- What `decodeBytesWith` has read when it answers an instruction. -/
theorem decodeBytesWith_ok {opc : OpcodeMap} {bs rest : List Byte} {i : Instr}
    (h : decodeBytesWith opc bs = .ok (i, rest)) :
    ∃ m tail, bs = opc m :: tail ∧ m.operandCount ≤ tail.length ∧
      i = assemble m (tail.getD 0 0) (tail.getD 1 0) ∧ rest = tail.drop m.operandCount := by
  cases bs with
  | nil => cases h
  | cons op tail =>
    cases hm : dispatch opc op with
    | none =>
      simp only [decodeBytesWith, hm] at h
      cases h
    | some m =>
      rw [decodeBytesWith_of_dispatch hm] at h
      split at h
      · cases h
      · next hlen =>
        cases h
        exact ⟨m, tail, by rw [dispatch_some hm], Nat.not_lt.mp hlen, rfl, rfl⟩

/-- The decoder's two looks into a list see the operand bytes at its head. -/
theorem take_pair_getD {tail : List Byte} {n : Nat} (hn : n ≤ 2) (hlen : n ≤ tail.length) :
    [tail.getD 0 0, tail.getD 1 0].take n = tail.take n := by
  match n, tail, hn, hlen with
  | 0, _, _, _ => rfl
  | 1, _ :: _, _, _ => rfl
  | 2, _ :: _ :: _, _, _ => rfl

/-- Settles O47: dispatch finds the kind by its opcode, and the operand bytes encoded are those the kind reads. -/
theorem decodingAnEncodingGivesItBack : Obligations.DecodingAnEncodingGivesItBack := by
  intro opc hopc i rest
  have hcount := i.length_operandBytes
  have hlen : i.mnemonic.operandCount ≤ (i.operandBytes ++ rest).length := by
    rw [List.length_append, hcount]
    exact Nat.le_add_right _ _
  have hbytes := take_pair_getD (operandCount_le_maxOperands i.mnemonic) hlen
  rw [List.take_left' hcount] at hbytes
  rw [encodeWith, List.cons_append, decodeBytesWith_of_dispatch (dispatch_opc hopc i.mnemonic),
    if_neg (Nat.not_lt.mpr hlen), List.drop_left' hcount, assemble_eq_of_operandBytes hbytes.symm]

/-- Settles O48: what was read is the opcode of the decoded kind, then the operand bytes of that kind, then the rest. -/
theorem encodingADecodingGivesItBack : Obligations.EncodingADecodingGivesItBack := by
  intro opc _ bs rest i h
  obtain ⟨m, tail, rfl, hlen, rfl, rfl⟩ := decodeBytesWith_ok h
  rw [encodeWith, assemble_mnemonic, operandBytes_assemble, take_pair_getD (operandCount_le_maxOperands m) hlen,
    List.cons_append, List.take_append_drop]

end Sys2Proof

namespace Sys2Proof.Machine

/-! ### The step runs the instruction at PC (spec/40 R110) -/

theorem decodeAtPc_eq_decode (s : State) :
    decodeAtPc Config.standard.opc s = decode (s.memRead s.pc) (s.memRead (s.pc + 1)) (s.memRead (s.pc + 2)) := by
  have h0 : s.pc + 0 = s.pc := BitVec.add_zero s.pc
  simp only [decodeAtPc, decode, fetchByte_eq, h0]

theorem stepWith_of_decodeAtPc {opc : OpcodeMap} {s : State} {i : Instr} (hs : s.running = true)
    (hi : decodeAtPc opc s = .ok i) : stepWith opc s = exec i s := by
  rw [stepWith, if_pos hs, hi, runDecoded]

/-- Settles O35: the three bytes of the statement are those the fetch reads. -/
theorem stepRunsTheDecodedInstruction : Obligations.StepRunsTheDecodedInstruction :=
  fun s _ hs hi => stepWith_of_decodeAtPc hs ((decodeAtPc_eq_decode s).trans hi)

/-- The decoder reads the instruction whose encoding lies at PC. -/
theorem decodeAtPc_of_encoding {opc : OpcodeMap} (hopc : opc.Valid) {i : Instr} {s : State}
    (hmem : ∀ (k : Nat) (hk : k < (encodeWith opc i).length),
      s.memRead (s.pc + BitVec.ofNat 8 k) = (encodeWith opc i)[k]) : decodeAtPc opc s = .ok i := by
  have hop : fetchByte s 0 = opc i.mnemonic := hmem 0 (Nat.zero_lt_succ _)
  have hoperand (k : Nat) (hk : k < i.operandBytes.length) :
      s.memRead (s.pc + BitVec.ofNat 8 (k + 1)) = i.operandBytes[k] := hmem (k + 1) (Nat.succ_lt_succ hk)
  have hbytes : i.operandBytes = [fetchByte s 1, fetchByte s 2].take i.mnemonic.operandCount := by
    have hcount : i.mnemonic.operandCount ≤ 2 := operandCount_le_maxOperands i.mnemonic
    refine List.ext_getElem (by simp [i.length_operandBytes, hcount]) fun k hk _ => ?_
    rw [← hoperand k hk, List.getElem_take]
    match k, Nat.lt_of_lt_of_le (i.length_operandBytes ▸ hk) hcount with
    | 0, _ => rfl
    | 1, _ => rfl
  rw [decodeAtPc, hop, decodeWith_of_dispatch (dispatch_opc hopc i.mnemonic), assemble_eq_of_operandBytes hbytes]

/-- Settles O49: the encoding's bytes at PC are the fetched ones, and fetching wraps as the statement's addresses do. -/
theorem encodedInstructionAtPcIsRun : Obligations.EncodedInstructionAtPcIsRun :=
  fun _ hopc _ _ hs hmem => stepWith_of_decodeAtPc hs (decodeAtPc_of_encoding hopc hmem)

/-- Settles O29: no instruction has that opcode, so the step is the stop that records it. -/
theorem unrecognizedOpcodeStopsWithItsByte : Obligations.UnrecognizedOpcodeStopsWithItsByte :=
  fun _ hs hop => stepWith_of_unrecognized hs hop

/-- Settles O3: cleared memory reads 0 at PC, and 0 is the opcode of no instruction. -/
theorem emptyMemoryStopsFirstStep : Obligations.EmptyMemoryStopsFirstStep := by
  refine unrecognizedOpcodeStopsWithItsByte State.reset rfl fun m => ?_
  cases m <;> decide

/-- Settles O32: the step tests the running flag first. -/
theorem stoppedCoreTakesNoStep : Obligations.StoppedCoreTakesNoStep :=
  fun _ hs => step_of_not_running hs

end Sys2Proof.Machine
end

section
/-! PROOFS about the stops (spec/60): what a step that stops the core does, and what it leaves. -/

namespace Sys2Proof.Machine

/-! ### Legal operands complete, a bad one stops (spec/40 R114, R115) -/

theorem firstBadReg_eq_none_iff {i : Instr} : i.firstBadReg = none ↔ i.wellFormed = true := by
  simp [Instr.firstBadReg, Instr.wellFormed]

/-- Settles O27: HLT has no register byte, and any other instruction is the fault of its first bad byte. -/
theorem badRegisterByteStopsWithNothingWritten : Obligations.BadRegisterByteStopsWithNothingWritten := by
  intro i s bad hbad
  have hi : i ≠ .hlt := by
    rintro rfl
    cases hbad
  rcases exec_completesOrFaults hi s with ⟨hnone, -⟩ | ⟨bad', hbad', hexec⟩
  · rw [hnone] at hbad
    cases hbad
  · obtain rfl : bad' = bad := Option.some.inj (hbad'.symm.trans hbad)
    exact hexec

/-- Settles O28: without a bad register byte, what `exec_completesOrFaults` leaves is completion. -/
theorem legalInstructionsCompleteAndKeepRunning : Obligations.LegalInstructionsCompleteAndKeepRunning := by
  intro i s hwf
  by_cases hi : i = .hlt
  · exact ⟨_, hi ▸ exec_hlt s, fun h => absurd hi h⟩
  · rcases exec_completesOrFaults hi s with ⟨-, t, ht, hsame⟩ | ⟨bad, hbad, -⟩
    · exact ⟨t, ht, fun _ => hsame⟩
    · rw [firstBadReg_eq_none_iff.mpr hwf] at hbad
      cases hbad

/-- Settles O9: HLT is `stop`, which changes the running flag and the stop record alone. -/
theorem hltStopsAndRecordsIt : Obligations.HltStopsAndRecordsIt :=
  fun s => ⟨_, exec_hlt s, rfl, rfl, rfl, rfl, fun _ => rfl, rfl, fun _ => rfl, rfl⟩

/-! ### The four ways a step can go (spec/60 R200) -/

/-- The step from `s` to `t` completed an instruction other than HLT. -/
structure StepCompletes (s t : State) (i : Instr) : Prop where
  decoded : decodeAtPc Config.standard.opc s = .ok i
  exec_eq : exec i s = .next t
  ne_hlt : i ≠ .hlt
  noBadReg : i.firstBadReg = none
  sameStop : State.SameStop s t

/-- The step from `s` to `t` stopped the core, with the cause and the info that the instruction at PC has. -/
inductive StepStops (s : State) : State → Prop
  | hlt (hd : decodeAtPc Config.standard.opc s = .ok .hlt) : StepStops s (stop .hlt 0 s)
  | unrecognized (hd : decodeAtPc Config.standard.opc s = .error (.unrecognizedOpcode (fetchByte s 0))) :
      StepStops s (stop .unrecognizedOpcode (fetchByte s 0) s)
  | badReg {i : Instr} {bad : Byte} (hd : decodeAtPc Config.standard.opc s = .ok i)
      (hbad : i.firstBadReg = some bad) : StepStops s (stop .invalidRegisterIndex bad s)

/-- All a step can do to the running flag and the stop record. -/
theorem step_cases {s t : State} (h : step s = .next t) :
    s.running = true ∧ ((∃ i, StepCompletes s t i) ∨ StepStops s t) := by
  obtain ⟨hs, ⟨i, hd, hexec⟩ | ⟨hd, rfl⟩⟩ := stepWith_cases h
  · refine ⟨hs, ?_⟩
    by_cases hi : i = .hlt
    · subst hi
      cases hexec
      exact .inr (.hlt hd)
    · rcases exec_completesOrFaults hi s with ⟨hnone, t', ht', hsame⟩ | ⟨bad, hbad, ht'⟩
      · rw [hexec] at ht'
        cases ht'
        exact .inl ⟨i, hd, hexec, hi, hnone, hsame⟩
      · rw [hexec] at ht'
        cases ht'
        exact .inr (.badReg hd hbad)
  · exact ⟨hs, .inr (.unrecognized hd)⟩

/-- What the instruction at PC must be for the step to stop the core. -/
def StopsAtPc (s : State) : Prop :=
  decodeAtPc Config.standard.opc s = .ok .hlt ∨
    (∃ op, decodeAtPc Config.standard.opc s = .error (.unrecognizedOpcode op)) ∨
    ∃ i bad, decodeAtPc Config.standard.opc s = .ok i ∧ i.firstBadReg = some bad

theorem StepStops.running {s t : State} (h : StepStops s t) : t.running = false := by
  cases h <;> rfl

theorem StepStops.stopsAtPc {s t : State} (h : StepStops s t) : StopsAtPc s := by
  cases h with
  | hlt hd => exact .inl hd
  | unrecognized hd => exact .inr (.inl ⟨_, hd⟩)
  | badReg hd hbad => exact .inr (.inr ⟨_, _, hd, hbad⟩)

theorem StepCompletes.not_stopsAtPc {s t : State} {i : Instr} (h : StepCompletes s t i) : ¬ StopsAtPc s := by
  obtain ⟨hd, -, hi, hnone, -⟩ := h
  rintro (hd' | ⟨op, hd'⟩ | ⟨j, bad, hd', hbad⟩) <;> rw [hd] at hd' <;> cases hd'
  · exact hi rfl
  · rw [hnone] at hbad
    cases hbad

/-- Settles O33: a completed instruction leaves the core running and is no cause of a stop; a stop is both. -/
theorem runningIsClearedExactlyByTheStops : Obligations.RunningIsClearedExactlyByTheStops := by
  intro s t h
  obtain ⟨hs, ⟨i, hcomplete⟩ | hstop⟩ := step_cases h
  · have ht : t.running = true := hcomplete.sameStop.1.trans hs
    exact ⟨hs, fun hf => absurd (ht.symm.trans hf) (by decide), fun hcause => absurd hcause hcomplete.not_stopsAtPc⟩
  · exact ⟨hs, fun _ => hstop.stopsAtPc, fun _ => hstop.running⟩

/-- Settles O34: each stop writes the running flag and the stop record alone, with one of three causes. -/
theorem stopsArePrecise : Obligations.StopsArePrecise := by
  intro s t h ht
  obtain ⟨hs, ⟨i, hcomplete⟩ | hstop⟩ := step_cases h
  · exact absurd (ht.symm.trans (hcomplete.sameStop.1.trans hs)) (by decide)
  · cases hstop with
    | hlt => exact ⟨rfl, nofun, nofun⟩
    | unrecognized => exact ⟨rfl, nofun, nofun⟩
    | badReg => exact ⟨rfl, nofun, nofun⟩

end Sys2Proof.Machine
end

section
/-! PROOFS about memory and the invariant (spec/10, spec/20): who writes memory, and what every step keeps. -/

namespace Sys2Proof.Machine

/-! ### Who writes memory (spec/10 R41) -/

theorem condJump_mem (taken : Bool) (ra : Reg) (s : State) : (condJump taken ra s).mem = s.mem := by
  cases taken with
  | true => rfl
  | false => rfl

theorem pushByte_mem (f : State → Byte) (s : State) :
    (pushByte f s).mem = s.mem.write s.pushAddress (f (s.setReg 7 (s.reg 7 - 1))) :=
  congrArg State.mem (pushByte_eq f s)

/-- An instruction leaves memory as it was, or is a PUSH or CALL with a legal register byte that wrote the one cell at
the decremented SP. -/
theorem exec_mem_eq_or_write {i : Instr} {s t : State} (h : exec i s = .next t) :
    t.mem = s.mem ∨
      (∃ a : Byte, a.toNat < 8 ∧ (i = .push a ∨ i = .call a)) ∧ ∃ v, t.mem = s.mem.write s.pushAddress v := by
  have hstop (bad : Byte) : (stop .invalidRegisterIndex bad s).mem = s.mem := rfl
  cases i with
  | ldi a imm8 => exact .inl (withReg_frame State.mem h hstop fun _ _ => rfl)
  | prn a => exact .inl (withReg_frame State.mem h hstop fun _ _ => rfl)
  | hlt => cases h; exact .inl rfl
  | add a b => exact .inl (withRegs_frame State.mem h hstop fun _ _ _ _ => rfl)
  | mul a b => exact .inl (withRegs_frame State.mem h hstop fun _ _ _ _ => rfl)
  | cmp a b => exact .inl (withRegs_frame State.mem h hstop fun _ _ _ _ => rfl)
  | push a =>
    obtain ⟨ha, rfl⟩ | ⟨-, rfl⟩ := withReg_cases h
    · exact .inr ⟨⟨a, ha, .inl rfl⟩, _, pushByte_mem (State.reg · ⟨a.toNat, ha⟩) s⟩
    · exact .inl (hstop a)
  | pop a => exact .inl (withReg_frame State.mem h hstop fun _ _ => rfl)
  | call a =>
    obtain ⟨ha, rfl⟩ | ⟨-, rfl⟩ := withReg_cases h
    · exact .inr ⟨⟨a, ha, .inr rfl⟩, _, pushByte_mem _ s⟩
    · exact .inl (hstop a)
  | ret => cases h; exact .inl rfl
  | jmp a => exact .inl (withReg_frame State.mem h hstop fun _ _ => rfl)
  | jeq a => exact .inl (withReg_frame State.mem h hstop fun ra _ => condJump_mem s.equalFlag ra s)
  | jne a => exact .inl (withReg_frame State.mem h hstop fun ra _ => condJump_mem (!s.equalFlag) ra s)

/-- Settles O39: a write of one cell changes what that cell reads and no other. -/
theorem onlyPushAndCallWriteMemory : Obligations.OnlyPushAndCallWriteMemory := by
  intro i s t c h hc
  obtain hmem | ⟨hstore, v, hmem⟩ := exec_mem_eq_or_write h
  · exact absurd (congrArg (Memory.read · c) hmem) hc
  · refine ⟨Classical.byContradiction fun hne => hc ?_, hstore⟩
    rw [State.memRead, hmem, Memory.read_write, if_neg hne, State.memRead]

/-! ### The invariant (spec/10 R30, R35; spec/60 R211) -/

theorem exec_mem_wf {i : Instr} {s t : State} (h : exec i s = .next t) (hs : s.mem.wf = true) : t.mem.wf = true := by
  obtain hmem | ⟨-, v, hmem⟩ := exec_mem_eq_or_write h
  · rw [hmem, hs]
  · rw [hmem]
    exact Memory.write_wf s.pushAddress v hs

/-- CMP writes one of the legal values. -/
theorem flLegal_setFl_cmpFlags (p q : Byte) (s : State) : (s.setFl (flOfFlags (cmpFlags p q))).FlLegal := by
  simp only [State.FlLegal, State.setFl_fl, flOfFlags_cmpFlags]
  split
  · simp
  · split <;> simp

theorem exec_flLegal {i : Instr} {s t : State} (h : exec i s = .next t) (hs : s.FlLegal) : t.FlLegal := by
  by_cases hi : ∃ a b, i = .cmp a b
  · obtain ⟨a, b, rfl⟩ := hi
    obtain ⟨ha, hb, rfl⟩ | ⟨-, rfl⟩ | ⟨-, -, rfl⟩ := withRegs_cases h
    · exact flLegal_setFl_cmpFlags _ _ s
    · exact hs
    · exact hs
  · simp only [State.FlLegal, exec_fl_of_ne_cmp h fun a b hab => hi ⟨a, b, hab⟩]
    exact hs

/-- The record of a running state is none and 0, and a completed instruction leaves it so. -/
theorem StepCompletes.stopRecordTrue {s t : State} {i : Instr} (h : StepCompletes s t i) (hs : s.running = true)
    (hrec : s.StopRecordTrue) : t.StopRecordTrue := by
  obtain ⟨hrun, hcause, hinfo⟩ := h.sameStop
  unfold State.StopRecordTrue at hrec ⊢
  rw [hcause]
  cases hc : s.stopCause with
  | none =>
    simp only [hc] at hrec ⊢
    exact ⟨hrun.trans hs, hinfo.trans hrec.2⟩
  | hlt | unrecognizedOpcode | invalidRegisterIndex =>
    simp only [hc] at hrec
    exact absurd (hs.symm.trans hrec.1) (by decide)
  | unsupportedAluOp =>
    simp only [hc] at hrec

/-- A stop leaves PC and memory, so the instruction at PC is still the one that caused it. -/
theorem StepStops.stopRecordTrue {s t : State} (h : StepStops s t) : t.StopRecordTrue := by
  cases h with
  | hlt hd => exact ⟨rfl, rfl, hd⟩
  | unrecognized hd => exact ⟨rfl, rfl, hd⟩
  | badReg hd hbad => exact ⟨rfl, _, hd, hbad⟩

theorem StepStops.inv {s t : State} (h : StepStops s t) (hmem : s.mem.wf = true) (hfl : s.FlLegal) : t.Inv := by
  refine ⟨?_, ?_, h.stopRecordTrue⟩
  · cases h <;> exact hmem
  · cases h <;> exact hfl

/-- Settles O43: a completed instruction keeps the three parts one by one; a stop keeps memory and FL and writes a true
record. -/
theorem stepKeepsTheInvariant : Obligations.StepKeepsTheInvariant := by
  rintro s t ⟨hmem, hfl, hrec⟩ h
  obtain ⟨hs, ⟨i, hcomplete⟩ | hstop⟩ := step_cases h
  · exact ⟨exec_mem_wf hcomplete.exec_eq hmem, exec_flLegal hcomplete.exec_eq hfl, hcomplete.stopRecordTrue hs hrec⟩
  · exact hstop.inv hmem hfl

theorem reset_inv : State.reset.Inv := ⟨Memory.reset_wf, .inl rfl, rfl, rfl⟩

theorem boot_eq_some {image : List Byte} {s : State} (h : boot image = some s) :
    s = loadFrom 0 image State.reset := by
  simp only [boot, loadImage] at h
  split at h
  · exact (Option.some.inj h).symm
  · cases h

/-- Settles O4: a load changes memory alone and keeps its canonical form, so FL and the record are those of reset. -/
theorem resetMeetsInvariant : Obligations.ResetMeetsInvariant := by
  refine ⟨reset_inv, fun image s hs => ?_⟩
  obtain rfl := boot_eq_some hs
  have hwf := loadFrom_wf 0 image Memory.reset_wf
  obtain ⟨m, hm⟩ := loadFrom_frame 0 image State.reset
  rw [hm] at hwf ⊢
  exact ⟨hwf, .inl rfl, rfl, rfl⟩

/-- Settles O6: the load port tests the length first. -/
theorem longImageIsRefused : Obligations.LongImageIsRefused :=
  fun _ himage => if_neg (Nat.not_le.mpr himage)

/-- Settles O2: three fields of the reset state. -/
theorem resetClearsStopRecordAndOutput : Obligations.ResetClearsStopRecordAndOutput := ⟨rfl, rfl, rfl⟩

/-! ### The canonical form of memory is unique (log 25) -/

/-- A canonical memory lists nothing below its lower bound. -/
theorem Memory.le_of_listed {lo n : Nat} {m : Memory} (hm : Memory.wfFrom lo m = true)
    (hn : m.lookup n ≠ Memory.unlisted) : lo ≤ n := by
  induction m generalizing lo with
  | nil => exact absurd rfl hn
  | cons c rest ih =>
    obtain ⟨k, v⟩ := c
    obtain ⟨hk, -, -, hrest⟩ := Memory.wfFrom_cons.mp hm
    rw [Memory.lookup_cons] at hn
    split at hn
    · omega
    · exact hk.trans (Nat.le_of_succ_le (ih hrest hn))

theorem Memory.lookup_head (k : Nat) (v : Byte) (rest : Memory) : Memory.lookup ((k, v) :: rest) k = v :=
  if_pos rfl

/-- The first address of a canonical memory is its least: a memory that reads there as it does lists that address. -/
theorem Memory.le_head {lo lo' k : Nat} {v : Byte} {rest m' : Memory}
    (hm : Memory.wfFrom lo ((k, v) :: rest) = true) (hm' : Memory.wfFrom lo' m' = true)
    (h : ∀ n < 256, Memory.lookup ((k, v) :: rest) n = m'.lookup n) : lo' ≤ k := by
  obtain ⟨-, hk, hv, -⟩ := Memory.wfFrom_cons.mp hm
  refine Memory.le_of_listed hm' ?_
  rwa [← h k hk, Memory.lookup_head]

/-- Memories that read alike keep doing so without their first entries, which lie at the same address. -/
theorem Memory.lookup_tail_eq {k : Nat} {v v' : Byte} {rest rest' : Memory}
    (hrest : Memory.wfFrom (k + 1) rest = true) (hrest' : Memory.wfFrom (k + 1) rest' = true)
    (h : ∀ n < 256, Memory.lookup ((k, v) :: rest) n = Memory.lookup ((k, v') :: rest') n) :
    ∀ n < 256, rest.lookup n = rest'.lookup n := by
  intro n hn
  by_cases hkn : k = n
  · subst hkn
    have hunlisted {r : Memory} (hr : Memory.wfFrom (k + 1) r = true) : r.lookup k = Memory.unlisted :=
      Classical.byContradiction fun hne => absurd (Memory.le_of_listed hr hne) (Nat.not_succ_le_self k)
    rw [hunlisted hrest, hunlisted hrest']
  · simpa only [Memory.lookup_cons, if_neg hkn] using h n hn

/-- Canonical memories that read alike at every address are one list: their first entries agree, and then their tails
do. -/
theorem Memory.eq_of_lookup_eq {lo lo' : Nat} {m m' : Memory} (hm : Memory.wfFrom lo m = true)
    (hm' : Memory.wfFrom lo' m' = true) (h : ∀ n < 256, m.lookup n = m'.lookup n) : m = m' := by
  induction m generalizing lo lo' m' with
  | nil =>
    cases m' with
    | nil => rfl
    | cons c' rest' =>
      obtain ⟨k', v'⟩ := c'
      exact absurd (Memory.le_head hm' (lo' := k' + 1) rfl fun n hn => (h n hn).symm) (Nat.not_succ_le_self k')
  | cons c rest ih =>
    obtain ⟨k, v⟩ := c
    obtain ⟨-, hk, hv, hrest⟩ := Memory.wfFrom_cons.mp hm
    cases m' with
    | nil => exact absurd (Memory.le_head hm (lo' := k + 1) rfl h) (Nat.not_succ_le_self k)
    | cons c' rest' =>
      obtain ⟨k', v'⟩ := c'
      obtain ⟨-, hk', hv', hrest'⟩ := Memory.wfFrom_cons.mp hm'
      have hle : k' ≤ k := Memory.le_head hm (Memory.wfFrom_cons.mpr ⟨le_rfl, hk', hv', hrest'⟩) h
      have hge : k ≤ k' :=
        Memory.le_head hm' (Memory.wfFrom_cons.mpr ⟨le_rfl, hk, hv, hrest⟩) fun n hn => (h n hn).symm
      obtain rfl : k = k' := le_antisymm hge hle
      obtain rfl : v = v' := by simpa only [Memory.lookup_head] using h k hk
      rw [ih hrest hrest' (Memory.lookup_tail_eq hrest hrest' h)]

/-- Settles O44: every address of the memory is a byte, so reading alike is `Memory.eq_of_lookup_eq`'s hypothesis. -/
theorem canonicalMemoriesReadAlikeAreEqual : Obligations.CanonicalMemoriesReadAlikeAreEqual := by
  intro m m' hm hm' h
  refine Memory.eq_of_lookup_eq hm hm' fun n hn => ?_
  have hread := h (BitVec.ofNat 8 n)
  rwa [Memory.read, Memory.read, BitVec.toNat_ofNat, Nat.mod_eq_of_lt hn] at hread

end Sys2Proof.Machine
end

section
/-! PROOFS about single instructions with legal operands (spec/41 to spec/44): results and frames. -/

namespace Sys2Proof.Machine

/-! ### Each instruction whole, for legal register bytes -/

theorem exec_ldi_eq {a : Byte} (ha : a.toNat < 8) (imm8 : Byte) (s : State) :
    exec (.ldi a imm8) s = .next ((s.setReg ⟨a.toNat, ha⟩ imm8).advancePc 3) :=
  withReg_ok ha s _

theorem exec_prn_eq {a : Byte} (ha : a.toNat < 8) (s : State) :
    exec (.prn a) s = .next ((s.output (s.reg ⟨a.toNat, ha⟩)).advancePc 2) :=
  withReg_ok ha s _

theorem exec_add_eq {a b : Byte} (ha : a.toNat < 8) (hb : b.toNat < 8) (s : State) :
    exec (.add a b) s =
      .next ((s.setReg ⟨a.toNat, ha⟩ (s.reg ⟨a.toNat, ha⟩ + s.reg ⟨b.toNat, hb⟩)).advancePc 3) :=
  withRegs_ok ha hb s _

theorem exec_mul_eq {a b : Byte} (ha : a.toNat < 8) (hb : b.toNat < 8) (s : State) :
    exec (.mul a b) s =
      .next ((s.setReg ⟨a.toNat, ha⟩ (s.reg ⟨a.toNat, ha⟩ * s.reg ⟨b.toNat, hb⟩)).advancePc 3) :=
  withRegs_ok ha hb s _

theorem exec_push_eq {a : Byte} (ha : a.toNat < 8) (s : State) :
    exec (.push a) s = .next ((pushByte (State.reg · ⟨a.toNat, ha⟩) s).advancePc 2) :=
  withReg_ok ha s _

theorem exec_pop_eq {a : Byte} (ha : a.toNat < 8) (s : State) :
    exec (.pop a) s = .next ((popByte (fun v u => u.setReg ⟨a.toNat, ha⟩ v) s).advancePc 2) :=
  withReg_ok ha s _

theorem exec_call_eq {a : Byte} (ha : a.toNat < 8) (s : State) :
    exec (.call a) s =
      .next ((pushByte returnAddress s).setPc ((pushByte returnAddress s).reg ⟨a.toNat, ha⟩)) :=
  withReg_ok ha s _

theorem exec_jmp_eq {a : Byte} (ha : a.toNat < 8) (s : State) :
    exec (.jmp a) s = .next (s.setPc (s.reg ⟨a.toNat, ha⟩)) :=
  withReg_ok ha s _

/-! ### LDI, PRN, JMP (spec/41, spec/44) -/

/-- Settles O7: LDI is one register write and an advance of PC. -/
theorem ldiLoadsItsImmediate : Obligations.LdiLoadsItsImmediate :=
  fun s _ imm8 ha => ⟨_, exec_ldi_eq ha imm8 s, fun q => State.setReg_reg s _ imm8 q, BitVec.toNat_add s.pc 3, rfl,
    fun _ => rfl, ⟨rfl, rfl, rfl⟩, rfl⟩

/-- Settles O8: PRN is one byte of output and an advance of PC. -/
theorem prnEmitsItsRegister : Obligations.PrnEmitsItsRegister :=
  fun s _ ha => ⟨_, exec_prn_eq ha s, rfl, BitVec.toNat_add s.pc 2, fun _ => rfl, rfl, fun _ => rfl, ⟨rfl, rfl, rfl⟩⟩

theorem execAll_cons_of_next {i : Instr} {s t : State} (h : exec i s = .next t) (rest : List Instr) :
    execAll (i :: rest) s = execAll rest t := by
  rw [execAll, h]

theorem execAll_singleton_of_next {i : Instr} {s t : State} (h : exec i s = .next t) : execAll [i] s = .next t :=
  execAll_cons_of_next h []

/-- Settles O10: PRN emits the register that LDI has just written. -/
theorem ldiThenPrnEmitsTheImmediate : Obligations.LdiThenPrnEmitsTheImmediate := by
  intro s a imm8 ha
  obtain ⟨t, ht, hreg, -, -, -, -, hout⟩ := ldiLoadsItsImmediate s a imm8 ha
  obtain ⟨u, hu, houtu, -⟩ := prnEmitsItsRegister t a ha
  refine ⟨u, (execAll_cons_of_next ht _).trans (execAll_singleton_of_next hu), ?_⟩
  rw [houtu, hreg, if_pos rfl, hout]

/-- Settles O23: JMP is one load of PC. -/
theorem jmpLoadsPcFromItsRegister : Obligations.JmpLoadsPcFromItsRegister :=
  fun s _ ha => ⟨_, exec_jmp_eq ha s, rfl, State.setPc_frame s _⟩

/-- Settles O26: loading PC with its own value changes nothing. -/
theorem jmpToItselfRepeatsTheState : Obligations.JmpToItselfRepeatsTheState := by
  intro s a ha hs hd hpc
  rw [stepRunsTheDecodedInstruction s _ hs hd, exec_jmp_eq ha, hpc]
  rfl

/-! ### ADD, MUL, CMP (spec/42) -/

/-- What an ADD or MUL that writes `v` to `ra` leaves as it was, and where PC goes. -/
theorem setReg_advancePc_frame (s : State) (ra : Reg) (v : Byte) :
    (∀ q : Reg, q ≠ ra → ((s.setReg ra v).advancePc 3).reg q = s.reg q) ∧
      ((s.setReg ra v).advancePc 3).pc.toNat = (s.pc.toNat + 3) % 256 ∧
      ((s.setReg ra v).advancePc 3).fl = s.fl ∧ State.SameMemory s ((s.setReg ra v).advancePc 3) ∧
      State.SameStop s ((s.setReg ra v).advancePc 3) ∧ ((s.setReg ra v).advancePc 3).out = s.out :=
  ⟨fun _ hq => State.setReg_reg_of_ne hq s v, BitVec.toNat_add s.pc 3, rfl, fun _ => rfl, ⟨rfl, rfl, rfl⟩, rfl⟩

theorem State.setReg_reg_same (s : State) (r : Reg) (v : Byte) : (s.setReg r v).reg r = v := by
  rw [State.setReg_reg, if_pos rfl]

/-- Settles O11: the register written is the bit-vector sum, whose value is the sum modulo 256. -/
theorem addKeepsTheSumModulo256 : Obligations.AddKeepsTheSumModulo256 := by
  intro s a b ha hb
  refine ⟨_, exec_add_eq ha hb s, ?_, setReg_advancePc_frame s _ _⟩
  rw [State.advancePc_reg, State.setReg_reg_same]
  exact BitVec.toNat_add _ _

/-- Settles O12: the register written is the bit-vector product, whose value is the product modulo 256. -/
theorem mulKeepsTheProductModulo256 : Obligations.MulKeepsTheProductModulo256 := by
  intro s a b ha hb
  refine ⟨_, exec_mul_eq ha hb s, ?_, setReg_advancePc_frame s _ _⟩
  rw [State.advancePc_reg, State.setReg_reg_same]
  exact BitVec.toNat_mul _ _

/-- Settles O15: a bit-vector sum or product is the low byte of the signed one as well. -/
theorem addAndMulAreRightForSignedBytes : Obligations.AddAndMulAreRightForSignedBytes := by
  intro s t u a b ha hb hadd hmul
  rw [exec_add_eq ha hb] at hadd
  rw [exec_mul_eq ha hb] at hmul
  cases hadd
  cases hmul
  simp only [State.advancePc_reg, State.setReg_reg_same, BitVec.ofInt_add, BitVec.ofInt_mul, BitVec.ofInt_toInt,
    and_self]

/-- Settles O13: CMP writes FL alone, by `flOfFlags_cmpFlags`. -/
theorem cmpWritesTheUnsignedOrder : Obligations.CmpWritesTheUnsignedOrder := by
  intro s a b ha hb
  refine ⟨_, exec_cmp_eq ha hb s, fun hlt => ?less, fun hgt => ?greater, fun heq => ?equal, fun _ => rfl,
    BitVec.toNat_add s.pc 3, fun _ => rfl, ⟨rfl, rfl, rfl⟩, rfl⟩
  all_goals rw [State.advancePc_fl, State.setFl_fl, flOfFlags_cmpFlags]
  case less => rw [if_pos hlt]
  case greater => rw [if_neg (Nat.lt_asymm hgt), if_pos hgt]
  case equal => rw [heq, if_neg (Nat.lt_irrefl _), if_neg (Nat.lt_irrefl _)]

/-- Settles O14: the order of two registers is one of three, and each is turned round by exchanging them. -/
theorem cmpIsSymmetric : Obligations.CmpIsSymmetric := by
  intro s t u a b ha hb ht hu
  obtain ⟨t', ht', hless, hgreater, hequal, -⟩ := cmpWritesTheUnsignedOrder s a b ha hb
  obtain ⟨u', hu', hless', hgreater', hequal', -⟩ := cmpWritesTheUnsignedOrder s b a hb ha
  cases ht.symm.trans ht'
  cases hu.symm.trans hu'
  rcases Nat.lt_trichotomy (s.reg ⟨a.toNat, ha⟩).toNat (s.reg ⟨b.toNat, hb⟩).toNat with h | h | h
  · rw [hless h, hgreater' h]
    decide
  · rw [hequal (BitVec.eq_of_toNat_eq h), hequal' (BitVec.eq_of_toNat_eq h.symm)]
    decide
  · rw [hgreater h, hless' h]
    decide

/-! ### PUSH and CALL (spec/43 R166, spec/44 R176) -/

theorem pushByte_reg_sp (f : State → Byte) (s : State) : (pushByte f s).reg 7 = s.pushAddress := by
  rw [pushByte_eq, State.memWrite_reg, State.setReg_reg_same, State.pushAddress_eq]

theorem pushByte_memRead_same (f : State → Byte) (s : State) :
    (pushByte f s).memRead s.pushAddress = f (s.setReg 7 (s.reg 7 - 1)) := by
  rw [State.memRead, pushByte_mem, Memory.read_write, if_pos rfl]

theorem pushByte_memRead_of_ne {c : Byte} (f : State → Byte) {s : State} (hc : c ≠ s.pushAddress) :
    (pushByte f s).memRead c = s.memRead c := by
  rw [State.memRead, pushByte_mem, Memory.read_write, if_neg hc, State.memRead]

/-- A push writes memory alone after it has moved SP, so a register reads in the end what it read at the store. -/
theorem pushByte_reg (f : State → Byte) (s : State) (q : Reg) :
    (pushByte f s).reg q = (s.setReg 7 (s.reg 7 - 1)).reg q := by
  rw [pushByte_eq, State.memWrite_reg]

theorem toNat_pushAddress (s : State) : s.pushAddress.toNat = ((s.reg 7).toNat + 255) % 256 := by
  rw [State.pushAddress_eq, BitVec.toNat_sub, Nat.add_comm]
  rfl

/-- Settles O16: a push of the register, then an advance of PC. -/
theorem pushStoresAtDecrementedSp : Obligations.PushStoresAtDecrementedSp := by
  intro s a ha
  refine ⟨_, exec_push_eq ha s, ?sp, fun q hq => pushByte_reg_of_ne hq (State.reg · ⟨a.toNat, ha⟩) s,
    pushByte_reg_sp (State.reg · ⟨a.toNat, ha⟩) s, ?cell,
    fun c hc => pushByte_memRead_of_ne (State.reg · ⟨a.toNat, ha⟩) hc, BitVec.toNat_add s.pc 2, rfl,
    ⟨rfl, rfl, rfl⟩, rfl⟩
  case sp => rw [State.advancePc_reg, pushByte_reg_sp, toNat_pushAddress]
  case cell => rw [State.advancePc_memRead, pushByte_memRead_same, State.advancePc_reg, pushByte_reg]

/-- Settles O21: a push of the return address, then a load of PC. -/
theorem callPushesReturnAddressAndJumps : Obligations.CallPushesReturnAddressAndJumps := by
  intro s a ha
  refine ⟨_, exec_call_eq ha s, ?sp, fun q hq => pushByte_reg_of_ne hq returnAddress s,
    pushByte_reg_sp returnAddress s, ?cell, fun c hc => pushByte_memRead_of_ne returnAddress hc, rfl, rfl,
    ⟨rfl, rfl, rfl⟩, rfl⟩
  case sp => rw [State.setPc_reg, pushByte_reg_sp, toNat_pushAddress]
  case cell =>
    rw [State.setPc_memRead, pushByte_memRead_same]
    exact BitVec.toNat_add s.pc 2

/-! ### POP (spec/43 R167) -/

/-- Settles O17: the popped byte is written to register `a`, then register 7 as it then reads is incremented. -/
theorem popDeliversThenIncrementsSp : Obligations.PopDeliversThenIncrementsSp := by
  intro s a ha
  refine ⟨_, exec_pop_eq ha s, fun ha7 => ?other, fun ha7 => ?seven, fun q hqa hq7 => ?frame,
    BitVec.toNat_add s.pc 2, rfl, fun _ => rfl, ⟨rfl, rfl, rfl⟩, rfl⟩
  all_goals rw [State.advancePc_reg, popByte_eq]
  case other =>
    have hne : (⟨a.toNat, ha⟩ : Reg) ≠ 7 := fun h => ha7 (congrArg Fin.val h)
    rw [State.advancePc_reg, State.setReg_reg_of_ne hne, State.setReg_reg_same, State.setReg_reg_same,
      State.setReg_reg_of_ne hne.symm]
    exact ⟨rfl, BitVec.toNat_add _ 1⟩
  case seven =>
    have heq : (⟨a.toNat, ha⟩ : Reg) = 7 := Fin.ext ha7
    rw [State.setReg_reg_same, heq, State.setReg_reg_same]
    exact BitVec.toNat_add _ 1
  case frame => rw [State.setReg_reg_of_ne hq7, State.setReg_reg_of_ne hqa]

/-! ### Stack instructions one after the other (spec/43 R168, R170, R171; spec/44 R182) -/

/-- Settles O18: PUSH, POP and CALL as stated for every register, read at register 7. -/
theorem registerSevenOperandsSeeTheMovedSp : Obligations.RegisterSevenOperandsSeeTheMovedSp := by
  intro s
  have h7 : (7 : Byte).toNat < 8 := by decide
  obtain ⟨t, ht, -, -, hsp, hcell, -⟩ := pushStoresAtDecrementedSp s 7 h7
  obtain ⟨u, hu, -, hpop, -⟩ := popDeliversThenIncrementsSp s 7 h7
  obtain ⟨v, hv, -, -, hspv, hcellv, -, hpcv, -⟩ := callPushesReturnAddressAndJumps s 7 h7
  refine ⟨⟨t, ht, hsp, hcell.trans hsp⟩, ⟨u, hu, BitVec.eq_of_toNat_eq ((hpop rfl).trans ?_)⟩,
    v, hv, hspv, hpcv.trans hspv, BitVec.eq_of_toNat_eq (hcellv.trans ?_)⟩
  · exact (BitVec.toNat_add _ 1).symm
  · exact (BitVec.toNat_add s.pc 2).symm

/-- Settles O19: the POP reads the cell the PUSH wrote, and its increment undoes the decrement. -/
theorem pushThenPopRoundTrips : Obligations.PushThenPopRoundTrips := by
  intro s a b ha hb ha7 hb7
  obtain ⟨t, ht, hspNat, hreg, hsp, hcell, -⟩ := pushStoresAtDecrementedSp s a ha
  obtain ⟨u, hu, hpop, -, hregu, -, -, hmem, -⟩ := popDeliversThenIncrementsSp t b hb
  obtain ⟨hval, hspu⟩ := hpop hb7
  have hcell' : t.memRead (s.reg 7 - 1) = s.reg ⟨a.toNat, ha⟩ :=
    hcell.trans (hreg _ fun h => ha7 (congrArg Fin.val h))
  have hsp' : u.reg 7 = s.reg 7 := by
    apply BitVec.eq_of_toNat_eq
    have hlt := (s.reg 7).isLt
    omega
  refine ⟨u, (execAll_cons_of_next ht _).trans (execAll_singleton_of_next hu), ?_, hsp', ?_, fun q hq => ?_⟩
  · rw [hval, hsp, State.pushAddress_eq, hcell']
  · rw [hmem, hcell']
  · by_cases hq7 : q = 7
    · rw [hq7, hsp']
    · rw [hregu q hq hq7, hreg q hq7]

/-- The stack cells counted from SP are those counted from SP - 1, one further. -/
theorem sub_ofNat_succ (p : Byte) (n : Nat) : p - 1 - BitVec.ofNat 8 n = p - BitVec.ofNat 8 (n + 1) := by
  bv_omega

/-- Fewer than 256 pushes do not come back to the cell above them. -/
theorem sub_one_ne_sub_ofNat {p : Byte} {j : Nat} (hj : j < 255) : p - 1 ≠ p - 1 - BitVec.ofNat 8 (j + 1) := by
  bv_omega

/-- Settles O20, by induction on the pushes: the first lies at SP - 1, and the others, from SP - 1 down, do not reach
that cell. -/
theorem pushesStackDownwards : Obligations.PushesStackDownwards := by
  intro ops
  induction ops with
  | nil =>
    exact fun s _ _ =>
      ⟨s, rfl, (BitVec.sub_zero _).symm, fun j hj => absurd hj (Nat.not_lt_zero j), fun _ _ => rfl⟩
  | cons a rest ih =>
    intro s hops hlen
    obtain ⟨ha, hrest⟩ := List.forall_mem_cons.mp hops
    rw [List.length_cons] at hlen
    have ha8 : a.toNat < 8 := Nat.lt_succ_of_lt ha
    obtain ⟨s₁, hs₁, -, hreg, hsp, hcell, hmem, -⟩ := pushStoresAtDecrementedSp s a ha8
    obtain ⟨t, ht, hspt, hcells, hframe⟩ := ih s₁ hrest (by omega)
    rw [State.pushAddress_eq] at hsp hcell hmem
    simp only [hsp, sub_ofNat_succ] at hspt hcells hframe
    have hne7 {q : Reg} {n : Nat} (hq : q.val = n) (hn : n < 7) : q ≠ 7 := by
      rintro rfl
      exact absurd hq (Nat.ne_of_gt hn)
    refine ⟨t, (execAll_cons_of_next hs₁ _).trans ht, hspt, fun j hj q hq => ?cells, fun c hc => ?frame⟩
    case frame =>
      rw [hframe c fun j hj => hc (j + 1) (Nat.succ_lt_succ hj), hmem c (hc 0 (Nat.zero_lt_succ _))]
    case cells =>
      match j with
      | 0 =>
        obtain rfl : q = ⟨a.toNat, ha8⟩ := Fin.ext hq
        have hbelow (k : Nat) (hk : k < rest.length) : s.reg 7 - 1 ≠ s.reg 7 - BitVec.ofNat 8 (k + 1 + 1) :=
          sub_ofNat_succ (s.reg 7) (k + 1) ▸ sub_one_ne_sub_ofNat (by omega)
        exact (hframe _ hbelow).trans (hcell.trans (hreg _ (hne7 rfl ha)))
      | k + 1 =>
        have hk : k < rest.length := Nat.lt_of_succ_lt_succ hj
        rw [hcells k hk q hq, hreg q (hne7 hq (hrest _ (List.getElem_mem hk)))]

/-- Settles O25: RET reads the return address where the CALL stored it, and its increment undoes the decrement. -/
theorem retResumesAfterItsCall : Obligations.RetResumesAfterItsCall := by
  intro s t u a ha hcall hsp hcell
  rw [exec_call_eq ha] at hcall
  cases hcall
  refine ⟨_, exec_ret_eq u, ?_, ?_⟩
  · rw [State.setReg_pc, State.setPc_pc, hsp, hcell, State.setPc_reg, pushByte_reg_sp, State.setPc_memRead,
      pushByte_memRead_same]
    rfl
  · rw [State.setReg_reg_same, hsp, State.setPc_reg, pushByte_reg_sp, State.pushAddress_eq, BitVec.sub_add_cancel]

/-! ### How far the plain instructions advance PC (spec/30 R96) -/

/-- Settles O41: each of the seven instructions advances PC by one more than its number of operand bytes. -/
theorem plainInstructionsAdvancePcByTheirLength : Obligations.PlainInstructionsAdvancePcByTheirLength := by
  intro i s t hwf h hplain
  have hlegal {b : Byte} (hb : b ∈ i.regBytes) : b.toNat < 8 := toNat_lt_of_wellFormed hwf hb
  suffices hpc : t.pc = s.pc + BitVec.ofNat 8 (encode i).length by
    rw [hpc, BitVec.toNat_add, BitVec.toNat_ofNat, Nat.add_mod_mod]
  cases i with
  | ldi a imm8 => cases (exec_ldi_eq (hlegal (.head _)) imm8 s).symm.trans h; rfl
  | prn a => cases (exec_prn_eq (hlegal (.head _)) s).symm.trans h; rfl
  | add a b => cases (exec_add_eq (hlegal (.head _)) (hlegal (.tail _ (.head _))) s).symm.trans h; rfl
  | mul a b => cases (exec_mul_eq (hlegal (.head _)) (hlegal (.tail _ (.head _))) s).symm.trans h; rfl
  | cmp a b => cases (exec_cmp_eq (hlegal (.head _)) (hlegal (.tail _ (.head _))) s).symm.trans h; rfl
  | push a => cases (exec_push_eq (hlegal (.head _)) s).symm.trans h; rfl
  | pop a => cases (exec_pop_eq (hlegal (.head _)) s).symm.trans h; rfl
  | hlt | call a | ret | jmp a | jeq a | jne a => simp [Instr.mnemonic] at hplain

end Sys2Proof.Machine
end

section
/-! PROOFS about whole runs (spec/40 R116) and what they rest on: no instruction reads the output trace (spec/10 R43),
the bits of FL above bit 0 steer nothing (spec/44 R184), a stored byte stays (spec/20 R66). -/

namespace Sys2Proof.Machine

/-! ### `run` one step at a time -/

theorem run_of_not_running {s : State} (hs : s.running = false) (n : Nat) : run n s = .next s := by
  cases n with
  | zero => rfl
  | succ n => rw [run, if_neg (by rw [hs]; decide)]

theorem run_succ_of_step {s t : State} (h : step s = .next t) (n : Nat) : run (n + 1) s = run n t := by
  rw [run, if_pos (stepWith_cases h).1, h]

/-- A state that runs on takes a step; one that does not is where its run ends. -/
theorem stopped_or_steps (s : State) : s.running = false ∨ ∃ t, step s = .next t := by
  cases hs : s.running with
  | false => exact .inl rfl
  | true =>
    obtain ⟨t, ht, -⟩ := step_oneOutcome hs
    exact .inr ⟨t, ht⟩

/-- Settles O45, by induction on the first part's steps: a stopped state is kept by both parts. -/
theorem runIsTotalAndComposes : Obligations.RunIsTotalAndComposes := by
  intro m n
  induction m with
  | zero => exact fun s => ⟨s, rfl, by rw [Nat.zero_add]⟩
  | succ m ih =>
    intro s
    rcases stopped_or_steps s with hs | ⟨t, ht⟩
    · exact ⟨s, run_of_not_running hs _, by rw [run_of_not_running hs, run_of_not_running hs]⟩
    · rw [Nat.add_right_comm, run_succ_of_step ht, run_succ_of_step ht]
      exact ih t

/-! ### FL over whole runs (spec/10 R31, spec/44 R184) -/

/-- The states differ in FL at most, and not in its bit 0. -/
def AgreeButUpperFl (t t' : State) : Prop := ∃ g : Byte, g.getLsbD 0 = t.fl.getLsbD 0 ∧ t' = t.setFl g

theorem AgreeButUpperFl.of_equalButFl {t t' : State} (h : EqualButFl t t')
    (hbit : t'.fl.getLsbD 0 = t.fl.getLsbD 0) : AgreeButUpperFl t t' := by
  have ht : t'.setFl t.fl = t := h
  refine ⟨t'.fl, hbit, ?_⟩
  rw [← ht]
  rfl

theorem exec_agreeButUpperFl {i : Instr} {s : State} {f : Byte} (hf : f.getLsbD 0 = s.fl.getLsbD 0) :
    RelatedResults AgreeButUpperFl (exec i s) (exec i (s.setFl f)) := by
  by_cases hi : ∃ a b, i = .cmp a b
  · obtain ⟨a, b, rfl⟩ := hi
    exact withRegs_related (fun _ _ _ => ⟨f, hf, rfl⟩) fun _ _ _ _ => ⟨_, rfl, rfl⟩
  · have hne : ∀ a b, i ≠ .cmp a b := fun a b hab => hi ⟨a, b, hab⟩
    obtain ⟨t, t', ht, ht', heq⟩ := exec_setFl_equalButFl (i := i) fun _ _ => hf
    refine ⟨t, t', ht, ht', .of_equalButFl heq ?_⟩
    rw [exec_fl_of_ne_cmp ht' hne, exec_fl_of_ne_cmp ht hne, State.setFl_fl, hf]

theorem step_agreeButUpperFl {s t : State} {f : Byte} (hf : f.getLsbD 0 = s.fl.getLsbD 0) (h : step s = .next t) :
    ∃ t', step (s.setFl f) = .next t' ∧ AgreeButUpperFl t t' := by
  obtain ⟨hs, ⟨i, hd, hexec⟩ | ⟨hd, rfl⟩⟩ := stepWith_cases h
  · obtain ⟨t', ht', hagree⟩ := (exec_agreeButUpperFl hf).of_next hexec
    exact ⟨t', (stepWith_of_decodeAtPc (s := s.setFl f) hs hd).trans ht', hagree⟩
  · refine ⟨stop .unrecognizedOpcode (fetchByte s 0) (s.setFl f), ?_, f, hf, rfl⟩
    have hd' : decodeAtPc Config.standard.opc (s.setFl f) = .error (.unrecognizedOpcode (fetchByte s 0)) := hd
    rw [step_eq (s.setFl f) hs, hd', runDecoded]

/-- Settles O38, by induction on the steps: each step keeps the two states in agreement, and they stop together. -/
theorem greaterAndLessFlagsNeverSteerARun : Obligations.GreaterAndLessFlagsNeverSteerARun := by
  intro n
  induction n with
  | zero =>
    intro s t f hf h
    cases h
    exact ⟨s.setFl f, rfl, rfl, hf⟩
  | succ n ih =>
    intro s t f hf h
    rcases stopped_or_steps s with hs | ⟨u, hu⟩
    · rw [run_of_not_running hs] at h
      cases h
      exact ⟨s.setFl f, run_of_not_running (s := s.setFl f) hs _, rfl, hf⟩
    · obtain ⟨u', hu', g, hg, rfl⟩ := step_agreeButUpperFl hf hu
      rw [run_succ_of_step hu] at h
      rw [run_succ_of_step hu']
      exact ih u t g hg h

/-! ### A stored byte stays until the next store to its cell (spec/20 R66) -/

theorem step_memRead_of_storesElsewhere {c : Byte} {n : Nat} {s t : State} (hc : storesElsewhere c (n + 1) s)
    (h : step s = .next t) : t.memRead c = s.memRead c := by
  obtain ⟨-, ⟨i, hd, hexec⟩ | ⟨-, rfl⟩⟩ := stepWith_cases h
  · refine Classical.byContradiction fun hne => ?_
    obtain ⟨rfl, a, ha, hi⟩ := onlyPushAndCallWriteMemory i s t c hexec hne
    refine (hc t h).1 a ha ?_ rfl
    rcases hi with rfl | rfl
    · exact .inl hd
    · exact .inr hd
  · rfl

theorem run_memRead_of_storesElsewhere {c : Byte} {n : Nat} {s t : State} (hc : storesElsewhere c n s)
    (h : run n s = .next t) : t.memRead c = s.memRead c := by
  induction n generalizing s with
  | zero =>
    cases h
    rfl
  | succ n ih =>
    rcases stopped_or_steps s with hs | ⟨u, hu⟩
    · rw [run_of_not_running hs] at h
      cases h
      rfl
    · rw [run_succ_of_step hu] at h
      rw [ih (hc u hu).2 h, step_memRead_of_storesElsewhere hc hu]

/-- Settles O42: the fetch reads memory at that cell, which still holds what the PUSH or CALL stored. -/
theorem storedBytesAreFetchedAtOnce : Obligations.StoredBytesAreFetchedAtOnce := by
  intro s t u a k n ha hstores hrun hfetch
  have hkept : fetchByte u k = t.memRead s.pushAddress := by
    rw [fetchByte, hfetch, run_memRead_of_storesElsewhere hstores hrun]
  rw [hkept]
  refine ⟨fun h => ?push, fun h => ?call⟩
  case push =>
    rw [exec_push_eq ha] at h
    cases h
    rw [State.advancePc_memRead, pushByte_memRead_same, State.setReg_reg]
    simp only [Fin.ext_iff]
    rfl
  case call =>
    rw [exec_call_eq ha] at h
    cases h
    exact pushByte_memRead_same returnAddress s

/-! ### The output trace (spec/10 R43) -/

/-- What an instruction appends to the output trace. -/
def emittedBy (i : Instr) (s : State) : List Byte :=
  match i with
  | .prn a => if ha : a.toNat < 8 then [s.reg ⟨a.toNat, ha⟩] else []
  | _ => []

theorem emittedBy_prn {a : Byte} (ha : a.toNat < 8) (s : State) :
    emittedBy (.prn a) s = [s.reg ⟨a.toNat, ha⟩] :=
  dif_pos ha

theorem emittedBy_eq_nil {i : Instr} (hi : ∀ a : Byte, a.toNat < 8 → i ≠ .prn a) (s : State) : emittedBy i s = [] := by
  cases i with
  | prn a => exact dif_neg fun ha => hi a ha rfl
  | _ => rfl

/-- The state with another output trace. -/
def State.setOut (s : State) (o : List Byte) : State := { s with out := o }

/-- From `s` to `t` the trace grows by `e`, and from `s` with trace `o` the run gave `t'`, which is `t` but for its
trace, grown from `o` by `e`. -/
def AppendsAlike (e : List Byte) (s : State) (o : List Byte) (t t' : State) : Prop :=
  t.out = s.out ++ e ∧ t' = t.setOut (o ++ e)

/-- A result that leaves the trace alone appends nothing. -/
theorem AppendsAlike.of_kept {s t t' : State} {o : List Byte} (h : t.out = s.out) (h' : t' = t.setOut o) :
    AppendsAlike [] s o t t' := by
  rw [AppendsAlike, List.append_nil, List.append_nil]
  exact ⟨h, h'⟩

theorem condJump_appendsAlike (taken : Bool) (ra : Reg) (s : State) (o : List Byte) :
    AppendsAlike [] s o (condJump taken ra s) (condJump taken ra (s.setOut o)) := by
  cases taken with
  | true => exact .of_kept rfl rfl
  | false => exact .of_kept rfl rfl

theorem exec_prn_appendsAlike (a : Byte) (s : State) (o : List Byte) :
    RelatedResults (AppendsAlike (emittedBy (.prn a) s) s o) (exec (.prn a) s) (exec (.prn a) (s.setOut o)) := by
  rcases Nat.lt_or_ge a.toNat 8 with ha | ha
  · refine ⟨_, _, exec_prn_eq ha s, exec_prn_eq ha (s.setOut o), ?_⟩
    rw [emittedBy_prn ha]
    exact ⟨rfl, rfl⟩
  · refine ⟨_, _, withReg_bad ha s _, withReg_bad ha (s.setOut o) _, ?_⟩
    rw [emittedBy, dif_neg (Nat.not_lt.mpr ha)]
    exact .of_kept rfl rfl

/-- No instruction reads the trace, and each appends `emittedBy` to it. -/
theorem exec_appendsAlike (i : Instr) (s : State) (o : List Byte) :
    RelatedResults (AppendsAlike (emittedBy i s) s o) (exec i s) (exec i (s.setOut o)) := by
  have hstop : ∀ bad ∈ i.regBytes, 8 ≤ bad.toNat → AppendsAlike [] s o
      (stop .invalidRegisterIndex bad s) (stop .invalidRegisterIndex bad (s.setOut o)) :=
    fun _ _ _ => .of_kept rfl rfl
  cases i with
  | prn a => exact exec_prn_appendsAlike a s o
  | ldi a imm8 => exact withReg_related hstop fun _ _ => .of_kept rfl rfl
  | hlt => exact ⟨_, _, rfl, rfl, .of_kept rfl rfl⟩
  | add a b => exact withRegs_related hstop fun _ _ _ _ => .of_kept rfl rfl
  | mul a b => exact withRegs_related hstop fun _ _ _ _ => .of_kept rfl rfl
  | cmp a b => exact withRegs_related hstop fun _ _ _ _ => .of_kept rfl rfl
  | push a => exact withReg_related hstop fun _ _ => .of_kept rfl rfl
  | pop a => exact withReg_related hstop fun _ _ => .of_kept rfl rfl
  | call a => exact withReg_related hstop fun _ _ => .of_kept rfl rfl
  | ret => exact ⟨_, _, rfl, rfl, .of_kept rfl rfl⟩
  | jmp a => exact withReg_related hstop fun _ _ => .of_kept rfl rfl
  | jeq a => exact withReg_related hstop fun ra _ => condJump_appendsAlike s.equalFlag ra s o
  | jne a => exact withReg_related hstop fun ra _ => condJump_appendsAlike (!s.equalFlag) ra s o

/-- Settles O40: `emittedBy` does not depend on the trace it is appended to. -/
theorem outputIsAppendedByPrnAndNeverRead : Obligations.OutputIsAppendedByPrnAndNeverRead := by
  intro i s t h
  have happends (o : List Byte) := (exec_appendsAlike i s o).of_next h
  obtain ⟨-, -, hout, -⟩ := happends s.out
  refine ⟨emittedBy i s, hout, ?_, fun hi => emittedBy_eq_nil hi s, fun o => ?_⟩
  · rintro a ha rfl
    exact emittedBy_prn ha s
  · obtain ⟨t', ht', -, rfl⟩ := happends o
    exact ht'

end Sys2Proof.Machine
end
